-- ==== Sys2Proof/Word.lean ====
section
/-! DEFINITION. The word types of the machine (00_scope.md R8, R12; 10_state.md R31, R37). -/

namespace Sys2Proof

/-- A byte: a data register, a timer or a memory cell (R8). -/
abbrev Byte := BitVec 8

/-- A 16-bit word: an opcode, the PC, I or a stack entry (R8, R100). -/
abbrev Word := BitVec 16

/-- The 12-bit address operand NNN (R101). -/
abbrev Addr := BitVec 12

/-- The 4-bit operand N, and each nibble of an opcode (R101). -/
abbrev Nibble := BitVec 4

/-- The name of one of the sixteen data registers, or of one of the sixteen keys (R31, R47). -/
abbrev Reg := Fin 16

/-- The index of VF, the register that is also the flag (R32). -/
abbrev Reg.f : Reg := 15

end Sys2Proof
end

