-- ==== Sys2Proof/Config.lean ====
section
/-! DEFINITION. What an implementation fixes (00_scope.md R9, 10_state.md R42) and the free values that the spec
leaves to an oracle (40_execution_cycle.md R140). -/

namespace Sys2Proof

/-- The width of the display in pixels (R9, R233; decision D20). -/
abbrev displayW : Nat := 64

/-- What EX9E and EXA1 do with a key index of 16 or more (R203; decision D11). -/
inductive KeyIndexPolicy where
  | fault
  | mask
  deriving DecidableEq, Repr

/-- The configuration parameters of R9 that a running machine consults: the five quirks of R42, and the rest of
R9's list that is not a reset value. No step changes one. -/
structure Config where
  /-- FX55 and FX65 advance I by X + 1 (R267, R268). -/
  saveLoadIncrement : Bool
  /-- 8XY1, 8XY2 and 8XY3 clear VF (R153 to R155). -/
  vfReset : Bool
  /-- DXYN skips the pixels past the edge of a sprite that starts on the screen (R231). -/
  clipping : Bool
  /-- 8XY6 and 8XYE shift VY (R158, R160). -/
  shifting : Bool
  /-- DXYN may stall (R232). -/
  displayWait : Bool
  /-- CYCLES_PER_FRAME: ticks in a frame (R341). -/
  cyclesPerFrame : Nat
  /-- DISPLAY_H: rows of the display (R233). -/
  displayH : Nat
  /-- STACK_LIMIT: none, or a cap on the depth of the stack (R40, R302). -/
  stackLimit : Option Nat
  /-- KEY_INDEX_POLICY (R203). -/
  keyIndexPolicy : KeyIndexPolicy
  /-- CLS_SETS_DRAW_FLAG (R230). -/
  clsSetsDrawFlag : Bool
  deriving DecidableEq, Repr

/-- DESIGN CHOICE (unsafe as a fact about one machine, log entry 1): the configuration of State.reset, the runner
defaults of 95_test_vectors.md; the spec leaves these open (D9, D20, D25, D33). Statements about every state hold for
every configuration. -/
def Config.runner : Config :=
  { saveLoadIncrement := false, vfReset := false, clipping := false, shifting := false, displayWait := false,
    cyclesPerFrame := 1, displayH := 32, stackLimit := none, keyIndexPolicy := .fault, clsSetsDrawFlag := false }

/-- DESIGN CHOICE (safe, log entry 5): the byte that the n-th execution of CXNN draws (R10, R140, R330). It has no
body, so a proof about it holds for every sequence of bytes. -/
opaque Config.randomByte : Nat → Byte

/-- DESIGN CHOICE (safe, log entry 6): the stall input that the n-th execution of DXYN under display_wait reads
(R140, R232). It has no body, so a proof about it holds for every sequence of stalls. -/
opaque Config.stall : Nat → Bool

end Sys2Proof
end

