-- ==== Sys2Proof/Syntax.lean ====
section
/-! DEFINITION. The instructions: one constructor for each row of spec/opcode_table.json, in its order
(30_encoding.md R104). Operands are named as in 00_scope.md R14. -/

namespace Sys2Proof

/-- The 34 instructions of R104. Every operand has exactly the width of its field (R101, R103), so every term is
an instruction that some word encodes. -/
inductive Instr where
  /-- 00E0, R230: clear the display. -/
  | cls
  /-- 00EE, R191: return from subroutine. -/
  | ret
  /-- 1NNN, R192: jump. -/
  | jp (nnn : Addr)
  /-- 2NNN, R193: call. -/
  | call (nnn : Addr)
  /-- 3XNN, R194: skip if VX = NN. -/
  | seImm (x : Reg) (nn : Byte)
  /-- 4XNN, R195: skip if VX ≠ NN. -/
  | sneImm (x : Reg) (nn : Byte)
  /-- 5XY0, R196: skip if VX = VY. -/
  | seReg (x y : Reg)
  /-- 6XNN, R150: VX ← NN. -/
  | ldImm (x : Reg) (nn : Byte)
  /-- 7XNN, R151: VX ← VX + NN, no flag. -/
  | addImm (x : Reg) (nn : Byte)
  /-- 8XY0, R152: VX ← VY. -/
  | ldReg (x y : Reg)
  /-- 8XY1, R153: VX ← VX or VY. -/
  | or (x y : Reg)
  /-- 8XY2, R154: VX ← VX and VY. -/
  | and (x y : Reg)
  /-- 8XY3, R155: VX ← VX xor VY. -/
  | xor (x y : Reg)
  /-- 8XY4, R156: VX ← VX + VY, VF ← carry. -/
  | addReg (x y : Reg)
  /-- 8XY5, R157: VX ← VX − VY, VF ← no borrow. -/
  | sub (x y : Reg)
  /-- 8XY6, R158: shift right by one. -/
  | shr (x y : Reg)
  /-- 8XY7, R159: VX ← VY − VX, VF ← no borrow. -/
  | subn (x y : Reg)
  /-- 8XYE, R160: shift left by one. -/
  | shl (x y : Reg)
  /-- 9XY0, R197: skip if VX ≠ VY. -/
  | sneReg (x y : Reg)
  /-- ANNN, R260: I ← NNN. -/
  | ldI (nnn : Addr)
  /-- BNNN, R200: jump to V0 + NNN. -/
  | jpV0 (nnn : Addr)
  /-- CXNN, R201: VX ← random byte and NN. -/
  | rnd (x : Reg) (nn : Byte)
  /-- DXYN, R231: draw a sprite. -/
  | drw (x y : Reg) (n : Nibble)
  /-- EX9E, R198: skip if key VX is held. -/
  | skp (x : Reg)
  /-- EXA1, R199: skip if key VX is not held. -/
  | sknp (x : Reg)
  /-- FX07, R261: VX ← DT. -/
  | ldVxDt (x : Reg)
  /-- FX0A, R262: wait for a key release. -/
  | ldVxK (x : Reg)
  /-- FX15, R263: DT ← VX. -/
  | ldDtVx (x : Reg)
  /-- FX18, R264: ST ← VX. -/
  | ldStVx (x : Reg)
  /-- FX1E, R265: I ← I + VX. -/
  | addIVx (x : Reg)
  /-- FX29, R269: I ← the glyph of VX. -/
  | ldFVx (x : Reg)
  /-- FX33, R266: store the decimal digits of VX. -/
  | ldBVx (x : Reg)
  /-- FX55, R267: store V0 to VX. -/
  | ldMemVx (x : Reg)
  /-- FX65, R268: load V0 to VX. -/
  | ldVxMem (x : Reg)
  deriving DecidableEq, Repr

end Sys2Proof
end

