-- ==== Sys2Proof/WellFormed.lean ====
section
/-! DEFINITION. What the spec calls well formed before a machine runs: a line of assembly (30_encoding.md R110, R111),
a configuration (00_scope.md R9, 43_display.md R233) and a ROM (70_reset_and_hazards.md R350).
A term of Instr needs no check: its operands have the widths of their fields (R101), so every term is well formed. -/

namespace Sys2Proof

/-- The conventional mnemonics of R104's syntax column, overloaded as R110 says. -/
inductive AsmMnemonic where
  | cls | ret | jp | call | se | sne | ld | add | or | and | xor | sub | shr | subn | shl | rnd | drw | skp | sknp
  deriving DecidableEq, Repr

/-- An operand of a line of assembly (R110): numbers are unbounded until they are checked. -/
inductive AsmOperand where
  /-- "V" and a number. -/
  | v (index : Nat)
  /-- nn, nnn or n. -/
  | num (value : Nat)
  /-- I, DT, ST, K, F, B, [I]. -/
  | i | dt | st | k | f | b | mem
  deriving DecidableEq, Repr

/-- A line of a listing: an instruction (R110) or the directive DB, one byte (R111). -/
inductive AsmLine where
  | instr (mnemonic : AsmMnemonic) (operands : List AsmOperand)
  | db (value : Nat)
  deriving DecidableEq, Repr

/-- The register operand fits: V0 to VF (R110). -/
def fitsReg (x : Nat) : Bool := decide (x < 16)

/-- The byte operand fits: 0 to FF (R110). -/
def fitsByte (n : Nat) : Bool := decide (n < 256)

/-- The address operand fits: 0 to FFF (R110). -/
def fitsAddr (n : Nat) : Bool := decide (n < 4096)

/-- The nibble operand fits: 0 to F (R110). -/
def fitsNibble (n : Nat) : Bool := decide (n < 16)

/-- A line is well formed: its mnemonic and operand kinds are those of a row of R104, and every operand fits its
field (R110). -/
def AsmLine.wellFormed : AsmLine → Bool
  | .instr .cls [] => true
  | .instr .ret [] => true
  | .instr .jp [.num n] => fitsAddr n
  | .instr .jp [.v x, .num n] => decide (x = 0) && fitsAddr n
  | .instr .call [.num n] => fitsAddr n
  | .instr .se [.v x, .num n] => fitsReg x && fitsByte n
  | .instr .se [.v x, .v y] => fitsReg x && fitsReg y
  | .instr .sne [.v x, .num n] => fitsReg x && fitsByte n
  | .instr .sne [.v x, .v y] => fitsReg x && fitsReg y
  | .instr .ld [.v x, .num n] => fitsReg x && fitsByte n
  | .instr .ld [.v x, .v y] => fitsReg x && fitsReg y
  | .instr .ld [.i, .num n] => fitsAddr n
  | .instr .ld [.v x, .dt] => fitsReg x
  | .instr .ld [.v x, .k] => fitsReg x
  | .instr .ld [.dt, .v x] => fitsReg x
  | .instr .ld [.st, .v x] => fitsReg x
  | .instr .ld [.f, .v x] => fitsReg x
  | .instr .ld [.b, .v x] => fitsReg x
  | .instr .ld [.mem, .v x] => fitsReg x
  | .instr .ld [.v x, .mem] => fitsReg x
  | .instr .add [.v x, .num n] => fitsReg x && fitsByte n
  | .instr .add [.v x, .v y] => fitsReg x && fitsReg y
  | .instr .add [.i, .v x] => fitsReg x
  | .instr .or [.v x, .v y] => fitsReg x && fitsReg y
  | .instr .and [.v x, .v y] => fitsReg x && fitsReg y
  | .instr .xor [.v x, .v y] => fitsReg x && fitsReg y
  | .instr .sub [.v x, .v y] => fitsReg x && fitsReg y
  | .instr .shr [.v x, .v y] => fitsReg x && fitsReg y
  | .instr .subn [.v x, .v y] => fitsReg x && fitsReg y
  | .instr .shl [.v x, .v y] => fitsReg x && fitsReg y
  | .instr .rnd [.v x, .num n] => fitsReg x && fitsByte n
  | .instr .drw [.v x, .v y, .num n] => fitsReg x && fitsReg y && fitsNibble n
  | .instr .skp [.v x] => fitsReg x
  | .instr .sknp [.v x] => fitsReg x
  | .instr _ _ => false
  | .db n => fitsByte n

/-- A configuration is well formed: the display has a row (R233) and a frame has a tick (R9). -/
def Config.wf (c : Config) : Bool := decide (1 ≤ c.displayH) && decide (1 ≤ c.cyclesPerFrame)

/-- A ROM fits between 0x200 and the end of memory (R350, decision D26). -/
def romFits (rom : List Byte) : Bool := decide (rom.length ≤ 0x1000 - 0x200)

end Sys2Proof
end

