-- ==== Sys2Proof/Decode.lean ====
section
/-! DEFINITION. Decoding and encoding (30_encoding.md R100 to R108), and the assembler of R110 and R111. -/

namespace Sys2Proof

/-- The fields of an opcode, decoded for every instruction whether it uses them or not (R101). -/
structure Fields where
  x : Reg
  y : Reg
  n : Nibble
  nn : Byte
  nnn : Addr
  deriving DecidableEq, Repr

/-- A row of the opcode map (R104). -/
structure Row where
  code : Word
  mask : Word
  build : Fields → Instr

/-- Why the decoder refuses: the word matches no row (R107), or there are fewer than two bytes (R100). -/
inductive DecodeReject where
  | unknownOpcode (op : Word)
  | truncated
  deriving DecidableEq, Repr

/-- Bits `lo + 3` to `lo` of an opcode, as a number below 16 (R101). -/
def nibbleAt (op : Word) (lo : Nat) : Nibble := op.extractLsb' lo 4

/-- R101: X = op[11:8], Y = op[7:4], N = op[3:0], NN = op[7:0], NNN = op[11:0]. -/
def fieldsOf (op : Word) : Fields :=
  { x := (nibbleAt op 8).toFin, y := (nibbleAt op 4).toFin, n := nibbleAt op 0,
    nn := op.extractLsb' 0 8, nnn := op.extractLsb' 0 12 }

/-- The opcode map of R104, in its order. -/
def opcodeTable : List Row :=
  [⟨0x00E0, 0xFFFF, fun _ => .cls⟩,
   ⟨0x00EE, 0xFFFF, fun _ => .ret⟩,
   ⟨0x1000, 0xF000, fun f => .jp f.nnn⟩,
   ⟨0x2000, 0xF000, fun f => .call f.nnn⟩,
   ⟨0x3000, 0xF000, fun f => .seImm f.x f.nn⟩,
   ⟨0x4000, 0xF000, fun f => .sneImm f.x f.nn⟩,
   ⟨0x5000, 0xF00F, fun f => .seReg f.x f.y⟩,
   ⟨0x6000, 0xF000, fun f => .ldImm f.x f.nn⟩,
   ⟨0x7000, 0xF000, fun f => .addImm f.x f.nn⟩] ++
  [⟨0x8000, 0xF00F, fun f => .ldReg f.x f.y⟩,
   ⟨0x8001, 0xF00F, fun f => .or f.x f.y⟩,
   ⟨0x8002, 0xF00F, fun f => .and f.x f.y⟩,
   ⟨0x8003, 0xF00F, fun f => .xor f.x f.y⟩,
   ⟨0x8004, 0xF00F, fun f => .addReg f.x f.y⟩,
   ⟨0x8005, 0xF00F, fun f => .sub f.x f.y⟩,
   ⟨0x8006, 0xF00F, fun f => .shr f.x f.y⟩,
   ⟨0x8007, 0xF00F, fun f => .subn f.x f.y⟩,
   ⟨0x800E, 0xF00F, fun f => .shl f.x f.y⟩] ++
  [⟨0x9000, 0xF00F, fun f => .sneReg f.x f.y⟩,
   ⟨0xA000, 0xF000, fun f => .ldI f.nnn⟩,
   ⟨0xB000, 0xF000, fun f => .jpV0 f.nnn⟩,
   ⟨0xC000, 0xF000, fun f => .rnd f.x f.nn⟩,
   ⟨0xD000, 0xF000, fun f => .drw f.x f.y f.n⟩,
   ⟨0xE09E, 0xF0FF, fun f => .skp f.x⟩,
   ⟨0xE0A1, 0xF0FF, fun f => .sknp f.x⟩] ++
  [⟨0xF007, 0xF0FF, fun f => .ldVxDt f.x⟩,
   ⟨0xF00A, 0xF0FF, fun f => .ldVxK f.x⟩,
   ⟨0xF015, 0xF0FF, fun f => .ldDtVx f.x⟩,
   ⟨0xF018, 0xF0FF, fun f => .ldStVx f.x⟩,
   ⟨0xF01E, 0xF0FF, fun f => .addIVx f.x⟩,
   ⟨0xF029, 0xF0FF, fun f => .ldFVx f.x⟩,
   ⟨0xF033, 0xF0FF, fun f => .ldBVx f.x⟩,
   ⟨0xF055, 0xF0FF, fun f => .ldMemVx f.x⟩,
   ⟨0xF065, 0xF0FF, fun f => .ldVxMem f.x⟩]

/-- The opcode selects the row: (op & mask) = match (R104). -/
def Row.selects (r : Row) (op : Word) : Bool := op &&& r.mask == r.code

/-- Decoding, a total function of words (R106): the instruction of the row that the opcode selects, else the
rejection that a tick turns into the fault UnknownOpcode (R107, R134). -/
def decode (op : Word) : Except DecodeReject Instr :=
  match opcodeTable.find? (fun r => r.selects op) with
  | some r => .ok (r.build (fieldsOf op))
  | none => .error (.unknownOpcode op)

/-- The opcode of two bytes, the one at the lower address first: big-endian (R75, R100). -/
def wordOfBytes (hi lo : Byte) : Word := hi ++ lo

/-- The two bytes of an opcode, the one at the lower address first (R75). -/
def bytesOfWord (op : Word) : List Byte := [op.extractLsb' 8 8, op.extractLsb' 0 8]

/-- Decoding a list of bytes: two bytes are consumed, and the rest is left (R100). -/
def decodeBytes : List Byte → Except DecodeReject (Instr × List Byte)
  | hi :: lo :: rest =>
    match decode (wordOfBytes hi lo) with
    | .ok i => .ok (i, rest)
    | .error e => .error e
  | _ => .error .truncated

/-- Four nibbles as a word, the most significant first (R11). -/
def word4 (c x y n : Nibble) : Word := c ++ x ++ y ++ n

/-- A register index as its nibble (R101). -/
def regNibble (x : Reg) : Nibble := BitVec.ofFin x

/-- Format A: class and NNN (R102). -/
def encodeA (c : Nibble) (nnn : Addr) : Word := c ++ nnn

/-- Format B: class, X and NN (R102). Format S is the same layout with a fixed byte. -/
def encodeB (c : Nibble) (x : Reg) (nn : Byte) : Word := c ++ regNibble x ++ nn

/-- Format R, class, X, Y and a sub-opcode; format D is the same layout with N (R102). -/
def encodeR (c : Nibble) (x y : Reg) (n : Nibble) : Word := word4 c (regNibble x) (regNibble y) n

/-- The word of an instruction, from the formats of R102 and the fixed bits of R104. -/
def encode : Instr → Word
  | .cls => 0x00E0
  | .ret => 0x00EE
  | .jp nnn => encodeA 0x1 nnn
  | .call nnn => encodeA 0x2 nnn
  | .seImm x nn => encodeB 0x3 x nn
  | .sneImm x nn => encodeB 0x4 x nn
  | .seReg x y => encodeR 0x5 x y 0x0
  | .ldImm x nn => encodeB 0x6 x nn
  | .addImm x nn => encodeB 0x7 x nn
  | .ldReg x y => encodeR 0x8 x y 0x0
  | .or x y => encodeR 0x8 x y 0x1
  | .and x y => encodeR 0x8 x y 0x2
  | .xor x y => encodeR 0x8 x y 0x3
  | .addReg x y => encodeR 0x8 x y 0x4
  | .sub x y => encodeR 0x8 x y 0x5
  | .shr x y => encodeR 0x8 x y 0x6
  | .subn x y => encodeR 0x8 x y 0x7
  | .shl x y => encodeR 0x8 x y 0xE
  | .sneReg x y => encodeR 0x9 x y 0x0
  | .ldI nnn => encodeA 0xA nnn
  | .jpV0 nnn => encodeA 0xB nnn
  | .rnd x nn => encodeB 0xC x nn
  | .drw x y n => encodeR 0xD x y n
  | .skp x => encodeB 0xE x 0x9E
  | .sknp x => encodeB 0xE x 0xA1
  | .ldVxDt x => encodeB 0xF x 0x07
  | .ldVxK x => encodeB 0xF x 0x0A
  | .ldDtVx x => encodeB 0xF x 0x15
  | .ldStVx x => encodeB 0xF x 0x18
  | .addIVx x => encodeB 0xF x 0x1E
  | .ldFVx x => encodeB 0xF x 0x29
  | .ldBVx x => encodeB 0xF x 0x33
  | .ldMemVx x => encodeB 0xF x 0x55
  | .ldVxMem x => encodeB 0xF x 0x65

/-- The instruction read from a word whose bits are numbered as spec/opcode_table.json numbers them. Every
instruction is one 16-bit word (R100), so bits above `nbits` are 0 and the word is laid out big-endian (R75). -/
def decodeTableWord (nbits w : Nat) : Option Instr :=
  match decodeBytes (bytesOfWord (BitVec.ofNat 16 (w % 2 ^ nbits))) with
  | .ok (i, _) => some i
  | .error _ => none

/-- A number as a register index; used only where `fitsReg` holds. -/
def asmReg (x : Nat) : Reg := Fin.ofNat 16 x

/-- The instruction that a well-formed line of assembly names (R110), chosen by mnemonic and operand kinds. -/
def asmInstr : AsmMnemonic → List AsmOperand → Option Instr
  | .cls, [] => some .cls
  | .ret, [] => some .ret
  | .jp, [.num n] => some (.jp (BitVec.ofNat 12 n))
  | .jp, [.v _, .num n] => some (.jpV0 (BitVec.ofNat 12 n))
  | .call, [.num n] => some (.call (BitVec.ofNat 12 n))
  | .se, [.v x, .num n] => some (.seImm (asmReg x) (BitVec.ofNat 8 n))
  | .se, [.v x, .v y] => some (.seReg (asmReg x) (asmReg y))
  | .sne, [.v x, .num n] => some (.sneImm (asmReg x) (BitVec.ofNat 8 n))
  | .sne, [.v x, .v y] => some (.sneReg (asmReg x) (asmReg y))
  | .ld, [.v x, .num n] => some (.ldImm (asmReg x) (BitVec.ofNat 8 n))
  | .ld, [.v x, .v y] => some (.ldReg (asmReg x) (asmReg y))
  | .ld, [.i, .num n] => some (.ldI (BitVec.ofNat 12 n))
  | .ld, [.v x, .dt] => some (.ldVxDt (asmReg x))
  | .ld, [.v x, .k] => some (.ldVxK (asmReg x))
  | .ld, [.dt, .v x] => some (.ldDtVx (asmReg x))
  | .ld, [.st, .v x] => some (.ldStVx (asmReg x))
  | .ld, [.f, .v x] => some (.ldFVx (asmReg x))
  | .ld, [.b, .v x] => some (.ldBVx (asmReg x))
  | .ld, [.mem, .v x] => some (.ldMemVx (asmReg x))
  | .ld, [.v x, .mem] => some (.ldVxMem (asmReg x))
  | .add, [.v x, .num n] => some (.addImm (asmReg x) (BitVec.ofNat 8 n))
  | .add, [.v x, .v y] => some (.addReg (asmReg x) (asmReg y))
  | .add, [.i, .v x] => some (.addIVx (asmReg x))
  | .or, [.v x, .v y] => some (.or (asmReg x) (asmReg y))
  | .and, [.v x, .v y] => some (.and (asmReg x) (asmReg y))
  | .xor, [.v x, .v y] => some (.xor (asmReg x) (asmReg y))
  | .sub, [.v x, .v y] => some (.sub (asmReg x) (asmReg y))
  | .shr, [.v x, .v y] => some (.shr (asmReg x) (asmReg y))
  | .subn, [.v x, .v y] => some (.subn (asmReg x) (asmReg y))
  | .shl, [.v x, .v y] => some (.shl (asmReg x) (asmReg y))
  | .rnd, [.v x, .num n] => some (.rnd (asmReg x) (BitVec.ofNat 8 n))
  | .drw, [.v x, .v y, .num n] => some (.drw (asmReg x) (asmReg y) (BitVec.ofNat 4 n))
  | .skp, [.v x] => some (.skp (asmReg x))
  | .sknp, [.v x] => some (.sknp (asmReg x))
  | _, _ => none

/-- The bytes of a line of a listing; none where the line is ill formed: the assembler refuses an operand that does
not fit its field (R110). DB places one byte (R111). -/
def assemble (l : AsmLine) : Option (List Byte) :=
  if l.wellFormed then
    match l with
    | .instr m ops => (asmInstr m ops).map (fun i => bytesOfWord (encode i))
    | .db n => some [BitVec.ofNat 8 n]
  else none

/-- The line of an instruction, in R104's syntax column. -/
def disassemble : Instr → AsmLine
  | .cls => .instr .cls []
  | .ret => .instr .ret []
  | .jp nnn => .instr .jp [.num nnn.toNat]
  | .call nnn => .instr .call [.num nnn.toNat]
  | .seImm x nn => .instr .se [.v x, .num nn.toNat]
  | .sneImm x nn => .instr .sne [.v x, .num nn.toNat]
  | .seReg x y => .instr .se [.v x, .v y]
  | .ldImm x nn => .instr .ld [.v x, .num nn.toNat]
  | .addImm x nn => .instr .add [.v x, .num nn.toNat]
  | .ldReg x y => .instr .ld [.v x, .v y]
  | .or x y => .instr .or [.v x, .v y]
  | .and x y => .instr .and [.v x, .v y]
  | .xor x y => .instr .xor [.v x, .v y]
  | .addReg x y => .instr .add [.v x, .v y]
  | .sub x y => .instr .sub [.v x, .v y]
  | .shr x y => .instr .shr [.v x, .v y]
  | .subn x y => .instr .subn [.v x, .v y]
  | .shl x y => .instr .shl [.v x, .v y]
  | .sneReg x y => .instr .sne [.v x, .v y]
  | .ldI nnn => .instr .ld [.i, .num nnn.toNat]
  | .jpV0 nnn => .instr .jp [.v 0, .num nnn.toNat]
  | .rnd x nn => .instr .rnd [.v x, .num nn.toNat]
  | .drw x y n => .instr .drw [.v x, .v y, .num n.toNat]
  | .skp x => .instr .skp [.v x]
  | .sknp x => .instr .sknp [.v x]
  | .ldVxDt x => .instr .ld [.v x, .dt]
  | .ldVxK x => .instr .ld [.v x, .k]
  | .ldDtVx x => .instr .ld [.dt, .v x]
  | .ldStVx x => .instr .ld [.st, .v x]
  | .addIVx x => .instr .add [.i, .v x]
  | .ldFVx x => .instr .ld [.f, .v x]
  | .ldBVx x => .instr .ld [.b, .v x]
  | .ldMemVx x => .instr .ld [.mem, .v x]
  | .ldVxMem x => .instr .ld [.v x, .mem]

end Sys2Proof
end

