-- ==== Sys2Proof/Machine/State.lean ====
section
/-! DEFINITION. The state of the machine (10_state.md R30 to R49), as plain data, and its value after reset. -/

namespace Sys2Proof.Machine

/-- The memory of 4096 bytes (R45): the cells that differ from what an unlisted address reads as, addresses rising. -/
abbrev Memory := List Host.Cell

/-- The pixel grid (R46): a list of rows, the row y = 0 first; in a row the column x = 0 first; true = pixel on. -/
abbrev Display := List (Vector Bool displayW)

/-- The state of a key (R47). -/
inductive KeyState where
  | none
  | pressed
  | down
  | released
  deriving DecidableEq, Repr

/-- The kinds of fault of the core (R44, R301 to R303). -/
inductive FaultKind where
  | unknownOpcode
  | stackOverflow
  | keyIndexOutOfRange
  deriving DecidableEq, Repr

/-- The fault record (R44): the kind, the word fetched, and the PC it was fetched from. -/
structure FaultRecord where
  kind : FaultKind
  opcode : Word
  pc : Word
  deriving DecidableEq, Repr

/-- The host's transactions of R340 that happen during a run; `reset` stands in Machine/Reset.lean.
A behaviour outside these has no move (R343). -/
inductive Transaction where
  /-- Execute one instruction (R141). Its two free inputs come from Config (log entries 5 and 6). -/
  | tick
  /-- Count both timers down by one (R320). -/
  | advanceTimers
  /-- Sample the keypad: for each key, whether it is physically held (R323). -/
  | keySample (held : Vector Bool 16)
  /-- Set draw_flag to false (R342). -/
  | clearDrawFlag
  /-- Read the display; no effect (R340). -/
  | readDisplay
  /-- Read draw_flag; no effect (R342). -/
  | readDrawFlag
  /-- Read the sound output; no effect (R331). -/
  | readSoundActive
  /-- Read the whole state; no effect (R340). -/
  | inspect
  deriving DecidableEq, Repr

/-- The state of R30, with the configuration of R42, and three fields of the model's own. -/
structure State where
  /-- V0 to VF (R31); V15 is the flag VF (R32). -/
  v : Vector Byte 16
  /-- The address register I (R37). -/
  i : Word
  /-- The program counter (R34). -/
  pc : Word
  /-- The call stack, bottom first, top last (R40). -/
  stack : List Word
  /-- The delay timer DT (R38). -/
  dt : Byte
  /-- The sound timer ST (R39). -/
  st : Byte
  /-- The memory (R45). -/
  mem : Memory
  /-- The pixel grid (R46). -/
  display : Display
  /-- The keypad (R47). -/
  keys : Vector KeyState 16
  /-- draw_flag (R43). -/
  drawFlag : Bool
  /-- The fault record; the core is halted while it is not none (R44). -/
  fault : Option FaultRecord
  /-- The configuration (R42, log entry 1); no step changes it. -/
  config : Config
  /-- The model's own, DESIGN CHOICE (safe, log entry 7): the host's transactions still to come; when it is
  empty the host ticks. -/
  schedule : List Transaction
  /-- The model's own, DESIGN CHOICE (safe, log entry 5): how many random bytes CXNN has drawn. -/
  draws : Nat
  /-- The model's own, DESIGN CHOICE (safe, log entry 6): how many stall inputs DXYN has read. -/
  stalls : Nat
  deriving DecidableEq, Repr

/-- Why a step stops. -/
inductive Fault where
  /-- Raised by a tick on a halted core, which has no step (R130, decision D30): a stuck state, with the record that
  halted it. Safe: the spec gives no transition there either. -/
  | halted (record : FaultRecord)
  deriving DecidableEq, Repr

/-- What has no meaning. -/
inductive Refusal where
  /-- Raised by an arm of exec whose instruction has no meaning yet; no arm does. Safe. -/
  | notModelled (mnemonic : String)
  /-- Raised by the transaction `reset(rom, config)` for a ROM longer than 3584 bytes (R350, decision D26). Safe: no
  run exists. -/
  | romTooLong
  deriving DecidableEq, Repr

/-- What a step and a meaning answer. -/
abbrev Result := Host.Outcome State Fault Refusal

/-- The machine right after reset (R49) with no program in memory (log entry 12). PC, the stack, the keys, draw_flag,
the fault record and memory are as R49 says. DESIGN CHOICE (unsafe, log entries 1 to 3): the values that R49 leaves OPEN;
PRESUMED (unsafe, log entry 4): the font that unlisted memory reads as. -/
def State.reset : State :=
  { v := Vector.replicate 16 0
    i := 0
    pc := 0x200
    stack := []
    dt := 0
    st := 0
    mem := []
    display := List.replicate 32 (Vector.replicate displayW false)
    keys := Vector.replicate 16 .none
    drawFlag := false
    fault := none
    config := Config.runner
    schedule := []
    draws := 0
    stalls := 0 }

end Sys2Proof.Machine
end

