-- ==== Sys2Proof/Machine/Ops.lean ====
section
/-! DEFINITION. The named operations over registers, memory, the stack, the display and the keypad, and the three ends
of a tick: completing, waiting and raising a fault (00_scope.md R13). -/

namespace Sys2Proof.Machine

/-! ## Memory (20_memory.md) -/

/-- PRESUMED (the family's font, log entry 4): the 80 bytes that runners place at FONT_START (R353). -/
def fontData : List Byte :=
  [0xF0, 0x90, 0x90, 0x90, 0xF0, 0x20, 0x60, 0x20, 0x20, 0x70,
   0xF0, 0x10, 0xF0, 0x80, 0xF0, 0xF0, 0x10, 0xF0, 0x10, 0xF0] ++
  [0x90, 0x90, 0xF0, 0x10, 0x10, 0xF0, 0x80, 0xF0, 0x10, 0xF0,
   0xF0, 0x80, 0xF0, 0x90, 0xF0, 0xF0, 0x10, 0x20, 0x40, 0x40] ++
  [0xF0, 0x90, 0xF0, 0x90, 0xF0, 0xF0, 0x90, 0xF0, 0x10, 0xF0,
   0xF0, 0x90, 0xF0, 0x90, 0x90, 0xE0, 0x90, 0xE0, 0x90, 0xE0] ++
  [0xF0, 0x80, 0x80, 0x80, 0xF0, 0xE0, 0x90, 0x90, 0x90, 0xE0,
   0xF0, 0x80, 0xF0, 0x80, 0xF0, 0xF0, 0x80, 0xF0, 0x80, 0x80]

/-- FONT_START (R8, R353). -/
abbrev fontStart : Nat := 0x050

/-- What an address that memory does not list reads as: the reset contents, the font at 0x050 and 0x00 elsewhere
(R49, R79). -/
def Memory.unlisted (a : Nat) : Byte :=
  if fontStart ≤ a then fontData.getD (a - fontStart) 0 else 0

/-- The byte at an address below 4096. -/
def Memory.lookup : Memory → Nat → Byte
  | [], a => Memory.unlisted a
  | (b, w) :: rest, a => if a = b then w else Memory.lookup rest a

/-- List a byte at an address, in its place. -/
def Memory.put (a : Nat) (w : Byte) : Memory → Memory
  | [] => [(a, w)]
  | c :: rest =>
    if a < c.1 then (a, w) :: c :: rest
    else if a = c.1 then (a, w) :: rest
    else c :: Memory.put a w rest

/-- List no byte at an address. -/
def Memory.drop (a : Nat) (m : Memory) : Memory := m.filter (fun c => c.1 ≠ a)

/-- Store a byte at an address below 4096, keeping the canonical form. -/
def Memory.write (m : Memory) (a : Nat) (w : Byte) : Memory :=
  if w = Memory.unlisted a then Memory.drop a m else Memory.put a w m

/-- The canonical form: addresses strictly rising and below 4096, and no cell equal to what its address reads as
unlisted. -/
abbrev Memory.wf (m : Memory) : Prop :=
  m.Pairwise (fun c d => c.1 < d.1) ∧ ∀ c ∈ m, c.1 < 4096 ∧ c.2 ≠ Memory.unlisted c.1

/-- `copy_in(addr, bytes)`: byte j goes to (addr + j) mod 4096 (R81). -/
def Memory.copyIn (m : Memory) (addr : Nat) : List Byte → Memory
  | [] => m
  | w :: rest => Memory.copyIn (m.write (addr % 4096) w) (addr + 1) rest

/-- `clear()`: every byte 0x00 (R81). Only the font region reads otherwise while nothing is listed. -/
def Memory.cleared : Memory :=
  Memory.copyIn [] fontStart (List.replicate fontData.length 0)

/-- `MemRead(addr, 1)`: the address is reduced modulo 4096 (R72). -/
def memRead (s : State) (addr : Nat) : Byte := s.mem.lookup (addr % 4096)

/-- `MemWrite(addr, 1, w)`: the address is reduced modulo 4096 (R72). -/
def memWrite (s : State) (addr : Nat) (w : Byte) : State :=
  { s with mem := s.mem.write (addr % 4096) w }

/-! ## Registers, PC, timers -/

/-- `V[x]` (R13). -/
def getV (s : State) (x : Reg) : Byte := s.v[x]

/-- `V[x] <- b` (R13). -/
def setV (s : State) (x : Reg) (b : Byte) : State := { s with v := s.v.set x b }

/-- `V[15] <- b`, the flag (R32). -/
def setVF (s : State) (b : Byte) : State := setV s Reg.f b

/-- `I <- w` (R13). -/
def setI (s : State) (w : Word) : State := { s with i := w }

/-- `pc <- target` (R13). -/
def setPc (s : State) (w : Word) : State := { s with pc := w }

/-- `DT <- b` (R38). -/
def setDt (s : State) (b : Byte) : State := { s with dt := b }

/-- `ST <- b` (R39). -/
def setSt (s : State) (b : Byte) : State := { s with st := b }

/-- The advance of PC before the action: modulo 65536 (R132). -/
def advance (s : State) : State := setPc s (s.pc + 2)

/-- A skip on top of the advance, if the condition holds (R202). -/
def skipIf (c : Bool) (s : State) : State := if c then setPc s (s.pc + 2) else s

/-! ## The call stack (R40) -/

/-- `Push(a)`: `a` is the new top. -/
def push (s : State) (a : Word) : State := { s with stack := s.stack ++ [a] }

/-- `Pop()` into PC; on the empty stack nothing (R191). -/
def popToPc (s : State) : State :=
  match s.stack.getLast? with
  | some a => setPc { s with stack := s.stack.dropLast } a
  | none => s

/-- The push would raise StackOverflow (R193, R302): the stack is capped and holds as many entries as the cap. -/
def stackFull (s : State) : Bool :=
  match s.config.stackLimit with
  | some n => s.stack.length == n
  | none => false

/-! ## The display (R233) -/

/-- `Pixel(x, y)`. DESIGN CHOICE (safe, log entry 14): off outside the grid, where it is never called. -/
def Display.pixel (d : Display) (x y : Nat) : Bool :=
  ((d[y]?).bind (fun row => row[x]?)).getD false

/-- `SetPixel(x, y, b)`. DESIGN CHOICE (safe, log entry 14): no effect outside the grid, where it is never called. -/
def Display.setPixel (d : Display) (x y : Nat) (b : Bool) : Display :=
  d.modify y (fun row => row.setIfInBounds x b)

/-- `ClearDisplay()`: a grid of `h` rows with every pixel off. -/
def Display.blank (h : Nat) : Display := List.replicate h (Vector.replicate displayW false)

/-! ## The keypad (R47) -/

/-- Held: Pressed or Down (R13, R16). -/
def KeyState.held : KeyState → Bool
  | .pressed => true
  | .down => true
  | .none => false
  | .released => false

/-- `KeyState(k)`. -/
def keyAt (s : State) (k : Reg) : KeyState := s.keys[k]

/-- The scan of FX0A: the lowest key that is Released (R262). -/
def firstReleased (s : State) : Option Reg :=
  ([0, 1, 2, 3, 4, 5, 6, 7, 8, 9, 10, 11, 12, 13, 14, 15] : List Reg).find? (fun k => keyAt s k = .released)

/-! ## Fetch (R131) -/

/-- The opcode at PC: two byte reads, the high byte first (R131, R73, R75). -/
def fetchWord (s : State) : Word :=
  wordOfBytes (memRead s s.pc.toNat) (memRead s (s.pc.toNat + 1))

/-! ## The ends of a tick (R136) -/

/-- The tick completes with this state: the outcome Executed (R136). -/
def complete (s : State) : Result := .next s

/-- `wait` on a state whose PC is already advanced: PC goes back by 2 and the tick ends, outcome Waiting (R138). -/
def wait (s : State) : Result := .next (setPc s (s.pc - 2))

/-- `raise kind(opcode, pc)`, given the state BEFORE the tick: every effect of the tick is discarded, PC's advance
included, and the fault record is set; outcome Faulted (R300, decision D5). This is the core's only exception entry: a
fault vectors nowhere and saves nothing else (R306), and there is no return from it (R307).
DEDUCED (safe, log entry 8): a faulting tick is a next state. -/
def raise (kind : FaultKind) (op : Word) (before : State) : Result :=
  .next { before with fault := some { kind := kind, opcode := op, pc := before.pc } }

end Sys2Proof.Machine
end

