-- ==== Sys2Proof/Machine/Flags.lean ====
section
/-! DEFINITION. The values that VF takes as a flag (10_state.md R36, 41_register_arithmetic.md R161): computed from
the exact result, before truncation. -/

namespace Sys2Proof.Machine

/-- A flag's value in VF: only 0 and 1 (R36). -/
def flagByte (b : Bool) : Byte := if b then 1 else 0

/-- Carry out of an 8-bit addition: the exact sum exceeds 255 (R156). -/
def carryFlag (a b : Byte) : Byte := flagByte (decide (a.toNat + b.toNat > 255))

/-- No borrow in `a - b`: a ≥ b (R157, R159). -/
def noBorrowFlag (a b : Byte) : Byte := flagByte (decide (a.toNat ≥ b.toNat))

/-- The bit that a shift right by one drops (R158). -/
def lowBitFlag (b : Byte) : Byte := b &&& 1

/-- The bit that a shift left by one drops (R160). -/
def highBitFlag (b : Byte) : Byte := (b >>> 7) &&& 1

/-- VF after OR, AND and XOR: 0 under the quirk vf_reset, else as it is (R153 to R155). -/
def applyVfReset (s : State) : State := if s.config.vfReset then setVF s 0 else s

end Sys2Proof.Machine
end

