-- ==== Sys2Proof/Machine/Operands.lean ====
section
/-! DEFINITION. The operand forms: immediates (30_encoding.md R103), the shift operand, the key index, the effective
address of a byte (44_keypad_timer_memory.md R270), decimal digits and sprite bits. -/

namespace Sys2Proof.Machine

/-- NNN zero-extended to 16 bits (R103). -/
def zext (nnn : Addr) : Word := nnn.setWidth 16

/-- A byte register zero-extended to 16 bits (R103, R200). -/
def zextByte (b : Byte) : Word := b.setWidth 16

/-- The operand of 8XY6 and 8XYE: VY under the quirk shifting, else VX (R158, R160). -/
def shiftSource (s : State) (x y : Reg) : Byte := if s.config.shifting then getV s y else getV s x

/-- The address of byte k of an I-relative access, before the reduction that memRead and memWrite make (R74). -/
def effAddr (s : State) (k : Nat) : Nat := s.i.toNat + k

/-- The key that EX9E and EXA1 ask for, or the fault they raise (R203). -/
def keyIndex (c : Config) (b : Byte) : Except FaultKind Reg :=
  if h : b.toNat < 16 then .ok ⟨b.toNat, h⟩
  else match c.keyIndexPolicy with
    | .fault => .error .keyIndexOutOfRange
    | .mask => .ok (b.extractLsb' 0 4).toFin

/-- The hundreds digit (R266). -/
def hundreds (b : Byte) : Byte := BitVec.ofNat 8 (b.toNat / 100)

/-- The tens digit (R266). -/
def tens (b : Byte) : Byte := BitVec.ofNat 8 (b.toNat / 10 % 10)

/-- The ones digit (R266). -/
def ones (b : Byte) : Byte := BitVec.ofNat 8 (b.toNat % 10)

/-- The address of the glyph of a byte: 0x050 + 5 · VX, the byte not masked (R269). -/
def glyphAddr (b : Byte) : Word := BitVec.ofNat 16 (fontStart + b.toNat * 5)

/-- Column x of a sprite row is set, most significant bit first: row & (0x80 >> x) ≠ 0 (R231). -/
def spriteBit (row : Byte) (x : Nat) : Bool := row &&& ((0x80 : Byte) >>> x) != 0

/-- The bit at column x, row y of a sprite that starts at (sx, sy) is skipped: the quirk clipping is on, and on some
axis the start is on the screen and the bit is past its edge (R231). Sums are exact (decision D23). -/
def clipped (c : Config) (sx sy x y : Nat) : Bool :=
  c.clipping &&
    ((decide (sx < displayW) && decide (sx + x ≥ displayW)) ||
      (decide (sy < c.displayH) && decide (sy + y ≥ c.displayH)))

end Sys2Proof.Machine
end

