-- ==== Sys2Proof/Machine/Arithmetic.lean ====
section
/-! DEFINITION. Register load and arithmetic instructions (41_register_arithmetic.md). Every meaning is given the state
before the tick, advances PC (R132), reads its operands before any write, and writes the flag last (R163). -/

namespace Sys2Proof.Machine

/-- Write a result to VX and then a flag to VF (R163), PC advanced: the common end of the flag-setting operations. -/
def finishAlu (s : State) (x : Reg) (result flag : Byte) : Result :=
  complete (setVF (setV (advance s) x result) flag)

/-- Write a bitwise result to VX, then VF under vf_reset (R153 to R155). -/
def finishLogic (s : State) (x : Reg) (result : Byte) : Result :=
  complete (applyVfReset (setV (advance s) x result))

/-- 6XNN (R150). -/
def execLdImm (x : Reg) (nn : Byte) (s : State) : Result := complete (setV (advance s) x nn)

/-- 7XNN (R151): no flag is written. -/
def execAddImm (x : Reg) (nn : Byte) (s : State) : Result :=
  complete (setV (advance s) x (BitVec.ofNat 8 ((getV s x).toNat + nn.toNat)))

/-- 8XY0 (R152). -/
def execLdReg (x y : Reg) (s : State) : Result := complete (setV (advance s) x (getV s y))

/-- 8XY1 (R153). -/
def execOr (x y : Reg) (s : State) : Result := finishLogic s x (getV s x ||| getV s y)

/-- 8XY2 (R154). -/
def execAnd (x y : Reg) (s : State) : Result := finishLogic s x (getV s x &&& getV s y)

/-- 8XY3 (R155). -/
def execXor (x y : Reg) (s : State) : Result := finishLogic s x (getV s x ^^^ getV s y)

/-- 8XY4 (R156). -/
def execAddReg (x y : Reg) (s : State) : Result :=
  finishAlu s x (BitVec.ofNat 8 ((getV s x).toNat + (getV s y).toNat)) (carryFlag (getV s x) (getV s y))

/-- 8XY5 (R157). -/
def execSub (x y : Reg) (s : State) : Result :=
  finishAlu s x (BitVec.ofInt 8 ((getV s x).toNat - (getV s y).toNat)) (noBorrowFlag (getV s x) (getV s y))

/-- 8XY6 (R158). -/
def execShr (x y : Reg) (s : State) : Result :=
  finishAlu s x (shiftSource s x y >>> 1) (lowBitFlag (shiftSource s x y))

/-- 8XY7 (R159). -/
def execSubn (x y : Reg) (s : State) : Result :=
  finishAlu s x (BitVec.ofInt 8 ((getV s y).toNat - (getV s x).toNat)) (noBorrowFlag (getV s y) (getV s x))

/-- 8XYE (R160). -/
def execShl (x y : Reg) (s : State) : Result :=
  finishAlu s x (shiftSource s x y <<< 1) (highBitFlag (shiftSource s x y))

end Sys2Proof.Machine
end

