-- ==== Sys2Proof/Machine/Block.lean ====
section
/-! DEFINITION. Keypad, timer, address-register and memory-block instructions (44_keypad_timer_memory.md). -/

namespace Sys2Proof.Machine

/-- ANNN (R260). -/
def execLdI (nnn : Addr) (s : State) : Result := complete (setI (advance s) (zext nnn))

/-- FX1E (R265): modulo 65536, no flag. -/
def execAddIVx (x : Reg) (s : State) : Result :=
  complete (setI (advance s) (s.i + zextByte (getV s x)))

/-- FX29 (R269). -/
def execLdFVx (x : Reg) (s : State) : Result := complete (setI (advance s) (glyphAddr (getV s x)))

/-- FX07 (R261). -/
def execLdVxDt (x : Reg) (s : State) : Result := complete (setV (advance s) x s.dt)

/-- FX15 (R263). -/
def execLdDtVx (x : Reg) (s : State) : Result := complete (setDt (advance s) (getV s x))

/-- FX18 (R264). -/
def execLdStVx (x : Reg) (s : State) : Result := complete (setSt (advance s) (getV s x))

/-- FX0A (R262): the lowest Released key, or wait. -/
def execLdVxK (x : Reg) (s : State) : Result :=
  match firstReleased s with
  | some k => complete (setV (advance s) x (BitVec.ofNat 8 k.val))
  | none => wait (advance s)

/-- FX33 (R266): three digits at I, I + 1, I + 2. -/
def execLdBVx (x : Reg) (s : State) : Result :=
  complete
    (memWrite
      (memWrite
        (memWrite (advance s) (effAddr s 0) (hundreds (getV s x)))
        (effAddr s 1) (tens (getV s x)))
      (effAddr s 2) (ones (getV s x)))

/-- The step of save_load_increment: I advances by X + 1 (R267, R268). -/
def incrementI (x : Reg) (s : State) : State :=
  if s.config.saveLoadIncrement then setI s (s.i + BitVec.ofNat 16 (x.val + 1)) else s

/-- Store the first `k` registers at I, in ascending order (R267). -/
def storeRegs : Nat → State → State
  | 0, s => s
  | k + 1, s => memWrite (storeRegs k s) (effAddr s k) (getV s (Fin.ofNat 16 k))

/-- Load the first `k` registers from I, in ascending order (R268). -/
def loadRegs : Nat → State → State
  | 0, s => s
  | k + 1, s => setV (loadRegs k s) (Fin.ofNat 16 k) (memRead s (effAddr s k))

/-- FX55 (R267). -/
def execLdMemVx (x : Reg) (s : State) : Result :=
  complete (incrementI x (storeRegs (x.val + 1) (advance s)))

/-- FX65 (R268). -/
def execLdVxMem (x : Reg) (s : State) : Result :=
  complete (incrementI x (loadRegs (x.val + 1) (advance s)))

end Sys2Proof.Machine
end

