-- ==== Sys2Proof/Machine/Control.lean ====
section
/-! DEFINITION. Control flow, skips and random (42_control_flow.md). Every meaning is given the state before the tick;
it advances PC first (R132), and a fault is raised on the state before the tick (R300). -/

namespace Sys2Proof.Machine

/-- 00EE (R191): a no-op on the empty stack. -/
def execRet (s : State) : Result := complete (popToPc (advance s))

/-- 1NNN (R192). -/
def execJp (nnn : Addr) (s : State) : Result := complete (setPc (advance s) (zext nnn))

/-- 2NNN (R193): the return address is the advanced PC. DEDUCED (safe, log entry 10): the word that a fault records is
the instruction's own word. -/
def execCall (nnn : Addr) (s : State) : Result :=
  if stackFull s then raise .stackOverflow (encode (.call nnn)) s
  else complete (setPc (push (advance s) (advance s).pc) (zext nnn))

/-- 3XNN (R194). -/
def execSeImm (x : Reg) (nn : Byte) (s : State) : Result :=
  complete (skipIf (decide (getV s x = nn)) (advance s))

/-- 4XNN (R195). -/
def execSneImm (x : Reg) (nn : Byte) (s : State) : Result :=
  complete (skipIf (decide (getV s x ≠ nn)) (advance s))

/-- 5XY0 (R196). -/
def execSeReg (x y : Reg) (s : State) : Result :=
  complete (skipIf (decide (getV s x = getV s y)) (advance s))

/-- 9XY0 (R197). -/
def execSneReg (x y : Reg) (s : State) : Result :=
  complete (skipIf (decide (getV s x ≠ getV s y)) (advance s))

/-- EX9E (R198). -/
def execSkp (x : Reg) (s : State) : Result :=
  match keyIndex s.config (getV s x) with
  | .ok k => complete (skipIf (keyAt s k).held (advance s))
  | .error kind => raise kind (encode (.skp x)) s

/-- EXA1 (R199). -/
def execSknp (x : Reg) (s : State) : Result :=
  match keyIndex s.config (getV s x) with
  | .ok k => complete (skipIf (!(keyAt s k).held) (advance s))
  | .error kind => raise kind (encode (.sknp x)) s

/-- BNNN (R200). -/
def execJpV0 (nnn : Addr) (s : State) : Result :=
  complete (setPc (advance s) (zextByte (getV s 0) + zext nnn))

/-- CXNN for a given draw r (R201). -/
def drawRandom (r : Byte) (x : Reg) (nn : Byte) (s : State) : Result :=
  complete (setV (advance s) x (r &&& nn))

/-- CXNN (R201): one draw from the random source (R140). -/
def execRnd (x : Reg) (nn : Byte) (s : State) : Result :=
  drawRandom (Config.randomByte s.draws) x nn { s with draws := s.draws + 1 }

end Sys2Proof.Machine
end

