-- ==== Sys2Proof/Machine/Display.lean ====
section
/-! DEFINITION. Display instructions: the rasterizer and the collision detector (43_display.md). -/

namespace Sys2Proof.Machine

/-- What drawing works on: the grid, and whether a collision has been seen. -/
structure Canvas where
  grid : Display
  hit : Bool
  deriving DecidableEq, Repr

/-- Draw one set sprite bit at a pixel: a collision if it was on, then flip it (R231). -/
def plotPixel (px py : Nat) (c : Canvas) : Canvas :=
  { grid := c.grid.setPixel px py (!c.grid.pixel px py), hit := c.hit || c.grid.pixel px py }

/-- Draw column x, row y of a sprite that starts at (sx, sy): a zero bit and a clipped bit do nothing; any other lands
at (sx + x) mod W, (sy + y) mod H (R231). -/
def drawBit (cfg : Config) (sx sy : Nat) (row : Byte) (y x : Nat) (c : Canvas) : Canvas :=
  if spriteBit row x && !clipped cfg sx sy x y then
    plotPixel ((sx + x) % displayW) ((sy + y) % cfg.displayH) c
  else c

/-- Draw the first `k` columns of a row, in ascending order (R231). -/
def drawCols (cfg : Config) (sx sy : Nat) (row : Byte) (y : Nat) : Nat → Canvas → Canvas
  | 0, c => c
  | k + 1, c => drawBit cfg sx sy row y k (drawCols cfg sx sy row y k c)

/-- Draw the first `h` rows of the sprite at I, in ascending order (R231). -/
def drawRows (s : State) (sx sy : Nat) : Nat → Canvas → Canvas
  | 0, c => c
  | h + 1, c => drawCols s.config sx sy (memRead s (effAddr s h)) h 8 (drawRows s sx sy h c)

/-- The grid and the collision after the whole sprite is drawn (R231). -/
def drawSprite (s : State) (x y : Reg) (n : Nibble) : Canvas :=
  drawRows s (getV s x).toNat (getV s y).toNat n.toNat { grid := s.display, hit := false }

/-- DXYN for a given stall input: wait with no other effect (R232), or draw (R231). -/
def drawOrWait (stall : Bool) (x y : Reg) (n : Nibble) (s : State) : Result :=
  if s.config.displayWait && stall then wait (advance s)
  else
    complete { setVF (advance s) (flagByte (drawSprite s x y n).hit) with
      display := (drawSprite s x y n).grid, drawFlag := true }

/-- DXYN (R231, R232): the stall input is read only under display_wait (R140). -/
def execDrw (x y : Reg) (n : Nibble) (s : State) : Result :=
  if s.config.displayWait then
    drawOrWait (Config.stall s.stalls) x y n { s with stalls := s.stalls + 1 }
  else drawOrWait false x y n s

/-- 00E0 (R230). -/
def execCls (s : State) : Result :=
  complete { advance s with
    display := Display.blank s.config.displayH, drawFlag := s.drawFlag || s.config.clsSetsDrawFlag }

end Sys2Proof.Machine
end

