-- ==== Sys2Proof/Machine/HostInterface.lean ====
section
/-! DEFINITION. The host's side of the machine: timers, keypad sampling, draw_flag, sound, and the frame contract
(60_exceptions.md R320 to R345). -/

namespace Sys2Proof.Machine

/-- One count of a timer: down by 1, stopping at 0 (R320). -/
def countDown (b : Byte) : Byte := if b.toNat > 0 then b - 1 else b

/-- `advance_timers()` (R320). -/
def advanceTimers (s : State) : State := setSt (setDt s (countDown s.dt)) (countDown s.st)

/-- The transition of one key (R324). -/
def KeyState.sample : KeyState → Bool → KeyState
  | .none, false => .none
  | .none, true => .pressed
  | .pressed, true => .down
  | .pressed, false => .released
  | .down, true => .down
  | .down, false => .released
  | .released, false => .none
  | .released, true => .pressed

/-- `key_sample(held)`: every key by R324 (R323). -/
def keySample (s : State) (held : Vector Bool 16) : State :=
  { s with keys := Vector.ofFn (fun k => (keyAt s k).sample held[k]) }

/-- `clear_draw_flag()` (R342). -/
def clearDrawFlag (s : State) : State := { s with drawFlag := false }

/-- `read_sound_active()`: ST ≠ 0 (R331). -/
def soundActive (s : State) : Bool := s.st != 0

/-- `read_display()`: the grid (R340). -/
def readDisplay (s : State) : Display := s.display

/-- `read_draw_flag()` (R342). -/
def readDrawFlag (s : State) : Bool := s.drawFlag

/-- What a host transaction other than a tick does to the state (R340): a read has no effect. For a tick nothing: the
step runs it. -/
def applyHost (t : Transaction) (s : State) : State :=
  match t with
  | .tick => s
  | .advanceTimers => advanceTimers s
  | .keySample held => keySample s held
  | .clearDrawFlag => clearDrawFlag s
  | .readDisplay => s
  | .readDrawFlag => s
  | .readSoundActive => s
  | .inspect => s

/-- The sync point of a frame (R341): the host reads draw_flag and the display, clears draw_flag, and reads the sound
output. DESIGN CHOICE (safe, log entry 13): it reads the display and clears the flag in every frame, not only if the flag
is set; clearing a flag that is not set changes nothing. -/
def syncPoint : List Transaction := [.readDrawFlag, .readDisplay, .clearDrawFlag, .readSoundActive]

/-- One frame of the frame contract (R341): CYCLES_PER_FRAME ticks, one advance_timers, the sync point.
DESIGN CHOICE (unsafe for a claim about a run of such frames alone, log entry 16): it lists no key_sample, whose place in
a frame R341 leaves open (D18), and every tick of a frame in which none faults. A host that samples the keypad lists
key_sample between any of these itself; no step uses this list. -/
def frameSchedule (c : Config) : List Transaction :=
  List.replicate c.cyclesPerFrame .tick ++ [.advanceTimers] ++ syncPoint

/-- The numeric code of a fault kind (R44, R301, decision D28). -/
def FaultKind.code : FaultKind → Nat
  | .unknownOpcode => 1
  | .stackOverflow => 2
  | .keyIndexOutOfRange => 3

/-- The packing of the five quirks that R42 offers (decision D32); nothing reads it. -/
def quirkWord (c : Config) : BitVec 5 :=
  BitVec.ofBool c.displayWait ++ BitVec.ofBool c.shifting ++ BitVec.ofBool c.clipping ++
    BitVec.ofBool c.vfReset ++ BitVec.ofBool c.saveLoadIncrement

end Sys2Proof.Machine
end

