-- ==== Sys2Proof/Machine/Tick.lean ====
section
/-! DEFINITION. The tick (40_execution_cycle.md R130 to R141), the outcome it reports (R136), and what each transaction
reports to the host (60_exceptions.md R340). -/

namespace Sys2Proof.Machine

/-- `tick()`: a halted core has no step (R130); else fetch, decode, and either raise UnknownOpcode (R134) or run the
instruction (R135, R141). -/
def tick (s : State) : Result :=
  match s.fault with
  | some record => .fault (.halted record)
  | none =>
    match decode (fetchWord s) with
    | .ok i => exec i s
    | .error _ => raise .unknownOpcode (fetchWord s) s

/-- What a tick reports to the host (R136). DEDUCED (safe, log entry 9): it is a function of the state before the tick,
and no part of State. -/
inductive TickOutcome where
  | executed
  | waiting
  | faulted (kind : FaultKind) (opcode pc : Word)
  deriving DecidableEq, Repr

/-- The fault an instruction raises, if any (R305): StackOverflow by 2NNN, KeyIndexOutOfRange by EX9E and EXA1. -/
def raises (i : Instr) (s : State) : Option FaultKind :=
  match i with
  | .call _ => if stackFull s then some .stackOverflow else none
  | .skp x =>
    match keyIndex s.config (getV s x) with
    | .ok _ => none
    | .error kind => some kind
  | .sknp x =>
    match keyIndex s.config (getV s x) with
    | .ok _ => none
    | .error kind => some kind
  | .cls | .ret | .jp _ | .seImm _ _ | .sneImm _ _ | .seReg _ _ | .ldImm _ _ | .addImm _ _ | .ldReg _ _ | .or _ _
  | .and _ _ | .xor _ _ | .addReg _ _ | .sub _ _ | .shr _ _ | .subn _ _ | .shl _ _ | .sneReg _ _ | .ldI _
  | .jpV0 _ | .rnd _ _ | .drw _ _ _ | .ldVxDt _ | .ldVxK _ | .ldDtVx _ | .ldStVx _ | .addIVx _ | .ldFVx _
  | .ldBVx _ | .ldMemVx _ | .ldVxMem _ => none

/-- The instruction rewinds PC to retry (R136): FX0A with no Released key, and DXYN's stall under display_wait. -/
def waits (i : Instr) (s : State) : Bool :=
  match i with
  | .ldVxK _ => (firstReleased s).isNone
  | .drw _ _ _ => s.config.displayWait && Config.stall s.stalls
  | .cls | .ret | .jp _ | .call _ | .seImm _ _ | .sneImm _ _ | .seReg _ _ | .ldImm _ _ | .addImm _ _ | .ldReg _ _
  | .or _ _ | .and _ _ | .xor _ _ | .addReg _ _ | .sub _ _ | .shr _ _ | .subn _ _ | .shl _ _ | .sneReg _ _ | .ldI _
  | .jpV0 _ | .rnd _ _ | .skp _ | .sknp _ | .ldVxDt _ | .ldDtVx _ | .ldStVx _ | .addIVx _ | .ldFVx _
  | .ldBVx _ | .ldMemVx _ | .ldVxMem _ => false

/-- The outcome of a tick at a state, none on a halted core (R130, R136). -/
def tickOutcome (s : State) : Option TickOutcome :=
  match s.fault with
  | some _ => none
  | none =>
    match decode (fetchWord s) with
    | .error _ => some (.faulted .unknownOpcode (fetchWord s) s.pc)
    | .ok i =>
      match raises i s with
      | some kind => some (.faulted kind (encode i) s.pc)
      | none => if waits i s then some .waiting else some .executed

/-- What a transaction reports to the host (R340). -/
inductive Reply where
  | nothing
  | outcome (o : Option TickOutcome)
  | grid (d : Display)
  | bit (b : Bool)
  | state (s : State)
  deriving DecidableEq, Repr

/-- The report of a transaction performed at a state (R340). -/
def reply (t : Transaction) (s : State) : Reply :=
  match t with
  | .tick => .outcome (tickOutcome s)
  | .advanceTimers => .nothing
  | .keySample _ => .nothing
  | .clearDrawFlag => .nothing
  | .readDisplay => .grid (readDisplay s)
  | .readDrawFlag => .bit (readDrawFlag s)
  | .readSoundActive => .bit (soundActive s)
  | .inspect => .state s

end Sys2Proof.Machine
end

