-- ==== Sys2Proof/Machine/Step.lean ====
section
/-! DEFINITION. One step of the machine: the next transaction of the host's schedule, or a tick when none is listed
(60_exceptions.md R340, log entry 7). -/

namespace Sys2Proof.Machine

/-- One step. Transactions are atomic and happen one at a time (R340). -/
def step (s : State) : Host.Outcome State Fault Refusal :=
  match s.schedule with
  | [] => tick s
  | .tick :: rest => tick { s with schedule := rest }
  | t :: rest => .next (applyHost t { s with schedule := rest })

/-- `s` with an instruction of the opcode table stored where the next step fetches, big-endian at PC (R75, R131), the
host about to tick, and the core not halted. -/
def State.withFetchWord (s : State) (nbits w : Nat) : State :=
  let t : State := { s with schedule := [], fault := none }
  let op : Word := BitVec.ofNat 16 (w % 2 ^ nbits)
  memWrite (memWrite t t.pc.toNat (op.extractLsb' 8 8)) (t.pc.toNat + 1) (op.extractLsb' 0 8)

end Sys2Proof.Machine
end

