-- ==== Sys2Proof/Machine/Reset.lean ====
section
/-! DEFINITION. The transaction `reset(rom, config)` (70_reset_and_hazards.md R350), with the values that the spec leaves
OPEN as arguments (decisions D13, D14, D21). -/

namespace Sys2Proof.Machine

/-- The reset values that the spec does not state (R9, R49). -/
structure ResetValues where
  /-- FONT_DATA (R353). -/
  font : List Byte
  /-- RESET_V. -/
  v : Vector Byte 16
  /-- RESET_I. -/
  i : Word
  /-- RESET_DT. -/
  dt : Byte
  /-- RESET_ST. -/
  st : Byte
  /-- RESET_DISPLAY. -/
  display : Display
  deriving DecidableEq, Repr

/-- The runners' values (95_test_vectors.md, R353), with a display of `h` rows. -/
def runnerValues (h : Nat) : ResetValues :=
  { font := fontData, v := Vector.replicate 16 0, i := 0, dt := 0, st := 0, display := Display.blank h }

/-- ROM_START, and the PC after reset (R8). -/
abbrev romStart : Nat := 0x200

/-- Memory after reset: cleared, then the font, then the ROM (R350). -/
def resetMemory (font rom : List Byte) : Memory :=
  (Memory.cleared.copyIn fontStart font).copyIn romStart rom

/-- The initial state (R350). -/
def resetState (config : Config) (values : ResetValues) (rom : List Byte) : State :=
  { v := values.v
    i := values.i
    pc := BitVec.ofNat 16 romStart
    stack := []
    dt := values.dt
    st := values.st
    mem := resetMemory values.font rom
    display := values.display
    keys := Vector.replicate 16 .none
    drawFlag := false
    fault := none
    config := config
    schedule := []
    draws := 0
    stalls := 0 }

/-- `reset(rom, config)`: refused for a ROM that does not fit (R350, decision D26). -/
def resetMachine (config : Config) (values : ResetValues) (rom : List Byte) : Result :=
  if romFits rom then .next (resetState config values rom) else .refused .romTooLong

end Sys2Proof.Machine
end

