-- ==== Sys2Proof/Safety.lean ====
section
/-! DEFINITION. What counts as a safe run, in the terms that claims use: the invariant of the machine, a running and a
halted core, the idle loop, the schedule's effect, and the assumptions about the host that R344 says a claim must
state. -/

namespace Sys2Proof.Machine

/-- The grid has DISPLAY_H rows; that each has DISPLAY_W columns is in its type (R46). -/
abbrev State.displayFits (s : State) : Prop := s.display.length = s.config.displayH

/-- The stack is no deeper than its cap, if it has one (R40, R302). -/
abbrev State.stackFits (s : State) : Prop := ∀ n, s.config.stackLimit = some n → s.stack.length ≤ n

/-- The invariant of the machine: memory in canonical form, a well-formed configuration, the grid of its size, and the
stack within its cap. -/
structure State.Inv (s : State) : Prop where
  mem : s.mem.wf
  config : s.config.wf = true
  display : s.displayFits
  stack : s.stackFits

/-! ## What a step leaves alone -/

/-- The parts of the state, one for each field. -/
inductive Part where
  | v | i | pc | stack | dt | st | mem | display | keys | drawFlag | fault | config | schedule | draws | stalls
  deriving DecidableEq, Repr

/-- A part of `t` is as in `s`; memory is compared byte by byte, as memRead reads it. -/
def Part.same (s t : State) : Part → Prop
  | .v => ∀ k, getV t k = getV s k
  | .i => t.i = s.i
  | .pc => t.pc = s.pc
  | .stack => t.stack = s.stack
  | .dt => t.dt = s.dt
  | .st => t.st = s.st
  | .mem => ∀ a, memRead t a = memRead s a
  | .display => t.display = s.display
  | .keys => t.keys = s.keys
  | .drawFlag => t.drawFlag = s.drawFlag
  | .fault => t.fault = s.fault
  | .config => t.config = s.config
  | .schedule => t.schedule = s.schedule
  | .draws => t.draws = s.draws
  | .stalls => t.stalls = s.stalls

/-- Every part of `t` is as in `s`, but those listed; the configuration and the model's own fields (log entries 1, 5, 6
and 7) are parts too. -/
def UnchangedBut (listed : List Part) (s t : State) : Prop := ∀ p, p ∉ listed → p.same s t

/-! ## Which registers an instruction writes (R32, R33) -/

/-- The instruction writes VF as a flag under the configuration (R32). -/
def flagWriter (c : Config) (i : Instr) : Bool :=
  match i with
  | .addReg _ _ | .sub _ _ | .shr _ _ | .subn _ _ | .shl _ _ | .drw _ _ _ => true
  | .or _ _ | .and _ _ | .xor _ _ => c.vfReset
  | .cls | .ret | .jp _ | .call _ | .seImm _ _ | .sneImm _ _ | .seReg _ _ | .ldImm _ _ | .addImm _ _ | .ldReg _ _
  | .sneReg _ _ | .ldI _ | .jpV0 _ | .rnd _ _ | .skp _ | .sknp _ | .ldVxDt _ | .ldVxK _ | .ldDtVx _ | .ldStVx _
  | .addIVx _ | .ldFVx _ | .ldBVx _ | .ldMemVx _ | .ldVxMem _ => false

/-- The register is a destination of the instruction (R33). -/
def destination (i : Instr) (k : Reg) : Bool :=
  match i with
  | .ldImm x _ | .addImm x _ | .ldReg x _ | .or x _ | .and x _ | .xor x _ | .addReg x _ | .sub x _ | .shr x _
  | .subn x _ | .shl x _ | .rnd x _ | .ldVxDt x | .ldVxK x => k = x
  | .ldVxMem x => decide (k ≤ x)
  | .cls | .ret | .jp _ | .call _ | .seImm _ _ | .sneImm _ _ | .seReg _ _ | .sneReg _ _ | .ldI _ | .jpV0 _
  | .drw _ _ _ | .skp _ | .sknp _ | .ldDtVx _ | .ldStVx _ | .addIVx _ | .ldFVx _ | .ldBVx _ | .ldMemVx _ => false

/-! ## The sprite of DXYN, bit by bit (R231, R234) -/

/-- The sprite bit at row r, column c is drawn, not skipped: it is set, most significant bit first, and clipping does
not drop it (R231). The start is at VX, VY of `s`; the row is the byte at I + r. -/
def spriteDrawn (s : State) (x y : Reg) (r c : Nat) : Bool :=
  (memRead s (s.i.toNat + r)).getMsbD c &&
    !(s.config.clipping &&
      ((decide ((getV s x).toNat < 64) && decide (64 ≤ (getV s x).toNat + c)) ||
        (decide ((getV s y).toNat < s.config.displayH) && decide (s.config.displayH ≤ (getV s y).toNat + r))))

/-- The sprite bit at row r, column c is drawn on the pixel (px, py) (R231). -/
def spriteLands (s : State) (x y : Reg) (r c px py : Nat) : Bool :=
  spriteDrawn s x y r c &&
    (decide (((getV s x).toNat + c) % 64 = px) && decide (((getV s y).toNat + r) % s.config.displayH = py))

/-- How many bits of the first `rows` rows of the sprite land on the pixel (px, py) (R234). -/
def spriteTouches (s : State) (x y : Reg) (rows px py : Nat) : Nat :=
  ((List.range rows).map fun r => (List.range 8).countP fun c => spriteLands s x y r c px py).sum

/-! ## Running, halting, idling -/

/-- The core is not halted (R44). -/
abbrev State.running (s : State) : Prop := s.fault = none

/-- The next step is a tick (R340). -/
abbrev State.ticksNext (s : State) : Prop := s.schedule = []

/-- The idle loop (R345): the word at PC is a jump to itself, and PC is at most 0xFFF. -/
abbrev State.idle (s : State) : Prop := s.pc.toNat ≤ 0xFFF ∧ fetchWord s = 0x1000 ||| s.pc

/-- Fairness of stalls (R344): the host does not stall for ever. An assumption that a claim states, never a property of
the core. -/
def FairStalls : Prop := ∀ n, ∃ m, n ≤ m ∧ Config.stall m = false

/-- The program waits in FX0A (R262, R344): the core runs, the word at PC is FX0A, and no key is Released. A stalled
DXYN also reports the outcome Waiting, but is not this. -/
abbrev State.waitsForKey (s : State) : Prop :=
  s.running ∧ (∃ x, decode (fetchWord s) = .ok (.ldVxK x)) ∧ firstReleased s = none

/-- The host's next move samples the keypad, and finds a key that was held not held any more (R324, R344). -/
def State.samplesRelease (s : State) : Prop :=
  ∃ held rest, s.schedule = .keySample held :: rest ∧ ∃ k : Reg, (keyAt s k).held = true ∧ held[k] = false

/-- Fairness of the keypad along a run (R344): where the program waits in FX0A, the host eventually samples a key that
was held and is now not held. An assumption that a claim states, never a property of the core. -/
def FairKeys (run : Nat → State) : Prop :=
  ∀ n, (run n).waitsForKey → ∃ m, n ≤ m ∧ (run m).samplesRelease

end Sys2Proof.Machine
end

