-- ==== Sys2Proof/Certificates/Slice0/Obligations.lean ====
section
/-! DEFINITION. The statements for the provers, from the numbered rules of spec/. Each docstring names the rule. Where a
statement says that nothing else changed, the model's own fields and the configuration are among what did not (log
entries 1, 5, 6 and 7). -/

/-! ## Shapes that several statements share -/

namespace Sys2Proof.Claims

open Sys2Proof.Machine

/-- The word of a format A row with operand NNN: the row's match plus NNN (R101, R104). -/
def wordA (row : Nat) (nnn : Addr) : Word := BitVec.ofNat 16 (row + nnn.toNat)

/-- The word of a format B row: match, X in bits 11 to 8, NN in bits 7 to 0. -/
def wordB (row : Nat) (x : Reg) (nn : Byte) : Word := BitVec.ofNat 16 (row + x.val * 256 + nn.toNat)

/-- The word of a format R row: match, X in bits 11 to 8, Y in bits 7 to 4. -/
def wordR (row : Nat) (x y : Reg) : Word := BitVec.ofNat 16 (row + x.val * 256 + y.val * 16)

/-- The word of a format S row: match, X in bits 11 to 8. -/
def wordS (row : Nat) (x : Reg) : Word := BitVec.ofNat 16 (row + x.val * 256)

/-- `t` is `s` with `b` in VX, PC two further, and nothing else changed. -/
def WritesV (s t : State) (x : Reg) (b : Byte) : Prop :=
  (∀ k, getV t k = if k = x then b else getV s k) ∧ t.pc = s.pc + 2 ∧ UnchangedBut [.v, .pc] s t

/-- `t` is `s` with `b` in VX and then `f` in VF, PC two further, and nothing else changed (R163). -/
def WritesVThenFlag (s t : State) (x : Reg) (b f : Byte) : Prop :=
  (∀ k, getV t k = if k = 15 then f else if k = x then b else getV s k) ∧ t.pc = s.pc + 2 ∧
    UnchangedBut [.v, .pc] s t

/-- A flag-setting operation of format R: for every X and Y, X = Y and X = 15 included, the row's word decodes to it,
and in every state it writes VX and then VF, from the operands as they were. -/
def AluRule (row : Nat) (ins : Reg → Reg → Instr) (result flag : State → Reg → Reg → Byte) : Prop :=
  ∀ x y, decode (wordR row x y) = .ok (ins x y) ∧
    ∀ s, ∃ t, exec (ins x y) s = .next t ∧ WritesVThenFlag s t x (result s x y) (flag s x y)

/-- A bitwise operation: VX, then VF ← 0 when vf_reset, else VF only as VX. -/
def BitwiseRule (row : Nat) (ins : Reg → Reg → Instr) (f : Byte → Byte → Byte) : Prop :=
  ∀ x y, decode (wordR row x y) = .ok (ins x y) ∧
    ∀ s, ∃ t, exec (ins x y) s = .next t ∧
      (s.config.vfReset = true → WritesVThenFlag s t x (f (getV s x) (getV s y)) 0) ∧
      (s.config.vfReset = false → WritesV s t x (f (getV s x) (getV s y)))

/-- A skip: PC moves by 4 when the condition holds, by 2 when it does not, and nothing else changes. -/
def SkipsWhen (i : Instr) (s : State) (c : Prop) : Prop :=
  ∃ t, exec i s = .next t ∧ (c → t.pc = s.pc + 4) ∧ (¬c → t.pc = s.pc + 2) ∧ UnchangedBut [.pc] s t

/-- The operand of a shift: VY when shifting, else VX. -/
def shiftOperand (s : State) (x y : Reg) : Byte := if s.config.shifting = true then getV s y else getV s x

/-- The key that a byte names under the policy mask, or when it is below 16. -/
def lowKey (b : Byte) : Reg := Fin.ofNat 16 b.toNat

/-- A key skip: on a key index below 16, or any index under the policy mask, it skips as `held` says; on any other
index it raises KeyIndexOutOfRange with the row's word, the state otherwise as before. -/
def KeySkipRule (row : Nat) (ins : Reg → Instr) (skips : KeyState → Prop) : Prop :=
  ∀ x, decode (wordS row x) = .ok (ins x) ∧ ∀ s,
    ((getV s x).toNat < 16 ∨ s.config.keyIndexPolicy = .mask →
      SkipsWhen (ins x) s (skips (keyAt s (lowKey (getV s x))))) ∧
    (16 ≤ (getV s x).toNat ∧ s.config.keyIndexPolicy = .fault →
      exec (ins x) s = .next { s with fault := some ⟨.keyIndexOutOfRange, wordS row x, s.pc⟩ })

/-- A row that only writes I, by a function of the state. -/
def WritesI (i : Instr) (s : State) (w : Word) : Prop :=
  ∃ t, exec i s = .next t ∧ t.i = w ∧ t.pc = s.pc + 2 ∧ UnchangedBut [.i, .pc] s t

/-- I after FX55 and FX65. -/
def iAfterBlock (s : State) (x : Reg) : Word :=
  if s.config.saveLoadIncrement = true then BitVec.ofNat 16 (s.i.toNat + x.val + 1) else s.i

/-- The words that R107 calls illegal, by their fields. -/
def Illegal (w : Word) : Prop :=
  (w.toNat / 4096 = 0x0 ∧ w ≠ 0x00E0 ∧ w ≠ 0x00EE) ∨
  (w.toNat / 4096 = 0x5 ∧ w.toNat % 16 ≠ 0) ∨
  (w.toNat / 4096 = 0x8 ∧ w.toNat % 16 ∈ [0x8, 0x9, 0xA, 0xB, 0xC, 0xD, 0xF]) ∨
  (w.toNat / 4096 = 0x9 ∧ w.toNat % 16 ≠ 0) ∨
  (w.toNat / 4096 = 0xE ∧ w.toNat % 256 ∉ [0x9E, 0xA1]) ∨
  (w.toNat / 4096 = 0xF ∧ w.toNat % 256 ∉ [0x07, 0x0A, 0x15, 0x18, 0x1E, 0x29, 0x33, 0x55, 0x65])

end Sys2Proof.Claims

open Sys2Proof Sys2Proof.Machine Sys2Proof.Claims

/-! ## Encoding (30_encoding.md) -/

/-- R100 to R104, R106: decoding the word of any instruction, with any operands, gives it back. The rows are the
spec's opcode map, some of it general knowledge (G1, choices D6 and D7). -/
def Obligations.DecodeOfEncode : Prop :=
  ∀ i : Instr, decode (encode i) = .ok i

/-- R101 to R104, R106: a word that decodes is the word of the instruction it decodes to; no bit is dropped. The rows
are the spec's opcode map, some of it general knowledge (G1, choices D6 and D7). -/
def Obligations.EncodeOfDecode : Prop :=
  ∀ (w : Word) (i : Instr), decode w = .ok i → encode i = w

/-- R106 (an inference the spec marks as its own, from R104): no word matches two rows of the opcode map. -/
def Obligations.RowsMutuallyExclusive : Prop :=
  opcodeTable.Pairwise fun r q => ∀ w : Word, ¬(r.selects w = true ∧ q.selects w = true)

/-- R107 (the spec's choice D6): the words that decode to nothing are exactly the listed ones. -/
def Obligations.IllegalWordsRefused : Prop :=
  ∀ w : Word, (decode w = .error (.unknownOpcode w) ↔ Illegal w) ∧ (¬Illegal w → ∃ i, decode w = .ok i)

/-- R104 and the vectors of 95_test_vectors.md: some words and what they decode to (general knowledge G1 among them).
-/
def Obligations.SampleWordsDecode : Prop :=
  decode 0x00E0 = .ok .cls ∧ decode 0x1234 = .ok (.jp 0x234) ∧ decode 0x6A42 = .ok (.ldImm 10 0x42) ∧
  decode 0x8AB6 = .ok (.shr 10 11) ∧ decode 0xD125 = .ok (.drw 1 2 5) ∧ decode 0xEBA1 = .ok (.sknp 11) ∧
  decode 0xF20A = .ok (.ldVxK 2) ∧ decode 0xFFFF = .error (.unknownOpcode 0xFFFF)

/-- R110, R111 (the spec's own notation, D29): the assembler gives bytes exactly for the well-formed lines. The lines,
already split into a mnemonic and operands, which of them are well formed, and the refusal of the rest are the model's
(DESIGN CHOICE, log entry 15). The refusal is the assembler's own first test, so that the content is that every
well-formed line has an instruction or a byte. -/
def Obligations.AssemblerRefusesIllFormed : Prop :=
  ∀ l : AsmLine, (assemble l).isSome = l.wellFormed

/-! ## The tick (40_execution_cycle.md) -/

/-- R131, R73: the opcode is the byte at PC times 256 plus the byte at PC + 1, each address modulo 4096 (choice D1).
-/
def Obligations.FetchIsBigEndian : Prop :=
  ∀ s : State, (fetchWord s).toNat =
    (s.mem.lookup (s.pc.toNat % 4096)).toNat * 256 + (s.mem.lookup ((s.pc.toNat + 1) % 4096)).toNat

/-- R135, R141, R340: at a running core the step runs exactly the instruction that the fetched word decodes to, PC's
advance included in exec (DEDUCED, log entry 9); a tick listed in the schedule (the model's own field, log entry 7) is
first taken off it. -/
def Obligations.StepRunsDecoded : Prop :=
  ∀ (s : State) (i : Instr), s.fault = none → decode (fetchWord s) = .ok i →
    (s.schedule = [] → step s = exec i s) ∧
    (∀ rest, s.schedule = .tick :: rest → step s = exec i { s with schedule := rest })

/-- R134, R301: a word that decodes to nothing records the fault with the word and its address, and changes nothing
else, PC included (the spec's choice D5). That this is a next state, and the outcome a function of the state, is
DEDUCED (log entries 8 and 9). -/
def Obligations.UnknownOpcodeRecorded : Prop :=
  ∀ (s : State) (e : DecodeReject), s.fault = none → decode (fetchWord s) = .error e →
    tick s = .next { s with fault := some ⟨.unknownOpcode, fetchWord s, s.pc⟩ } ∧
    tickOutcome s = some (.faulted .unknownOpcode (fetchWord s) s.pc)

/-- R130 (the spec's choice D30): a tick has a step exactly when no fault is recorded. The fault halted stands for
having no step, and the outcome is a function of the state: DEDUCED (log entries 8 and 9). -/
def Obligations.TickOnlyWhenRunning : Prop :=
  ∀ s : State, ((∃ t, tick s = .next t) ↔ s.fault = none) ∧
    (∀ r, s.fault = some r → tick s = .fault (.halted r) ∧ tickOutcome s = none)

/-- R136, R137, R300 (the spec's choices D5, D10, and its inference R137): a tick of a running core has one outcome.
Executed leaves no fault; Waiting leaves everything as it was but the model's own count of stall inputs (log entry 6);
Faulted records the fetched word and its address and leaves everything else as it was. That the outcome is a function
of the state, and a faulting tick a next state, is DEDUCED (log entries 8 and 9). -/
def Obligations.TickHasOneOutcome : Prop :=
  ∀ s : State, s.fault = none → ∃ t o, tick s = .next t ∧ tickOutcome s = some o ∧
    (o = .executed → t.fault = none) ∧
    (o = .waiting → t = { s with stalls := t.stalls }) ∧
    (∀ k op pc, o = .faulted k op pc → op = fetchWord s ∧ pc = s.pc ∧ t = { s with fault := some ⟨k, op, pc⟩ })

/-- R300, R44, R130 (the spec's choices D5, D28, D30): once a fault is recorded no step clears or changes it, and only
the timers, the keys and draw_flag can still move, with the schedule (the model's own, log entry 7). -/
def Obligations.FaultIsFinal : Prop :=
  ∀ (s t : State) (r : FaultRecord), s.fault = some r → step s = .next t →
    t.fault = some r ∧ UnchangedBut [.dt, .st, .keys, .drawFlag, .schedule] s t

/-- R302, R303, R305 (the spec's choices D11, D12): an instruction raises a fault only as 2NNN at the cap, or as EX9E
or EXA1 on an index of 16 or more under the policy fault; the record holds its word (DEDUCED, log entry 10) and its
address, and the rest of the state is as before. -/
def Obligations.FaultSources : Prop :=
  ∀ (i : Instr) (s t : State) (r : FaultRecord), s.fault = none → exec i s = .next t → t.fault = some r →
    t = { s with fault := some r } ∧ r.opcode = encode i ∧ r.pc = s.pc ∧
    ((∃ nnn, i = .call nnn ∧ r.kind = .stackOverflow ∧ s.config.stackLimit = some s.stack.length) ∨
      (∃ x, (i = .skp x ∨ i = .sknp x) ∧ r.kind = .keyIndexOutOfRange ∧
        s.config.keyIndexPolicy = .fault ∧ 16 ≤ (getV s x).toNat))

/-- R345 (c) (the spec's choice D31): a tick in the idle loop leaves the state unchanged. -/
def Obligations.IdleLoopStays : Prop :=
  ∀ s : State, s.fault = none → s.idle → tick s = .next s

/-- R304, R305 (the latter an inference of the spec's own): no instruction stops the machine; each answers a next
state in every state, a fault being a record in it (log entry 8). -/
def Obligations.EveryInstructionAnswers : Prop :=
  ∀ (i : Instr) (s : State), ∃ t, exec i s = .next t

/-! ## Invariants and who may write what -/

/-- R49: the invariant holds at reset (with the reset values that log entries 1 to 4 name). -/
def Obligations.InvariantAtReset : Prop := State.reset.Inv

/-- R40, R45, R46, R72, R77: every step keeps the canonical form of memory, the size of the grid, the cap of the stack
and the well-formed configuration. The canonical form is the model's representation of R45's bytes, and that the
configuration stands in State is its choice (log entry 1). -/
def Obligations.InvariantKept : Prop :=
  ∀ s t : State, s.Inv → step s = .next t → t.Inv

/-- R42, R9: no step changes the configuration; that it stands in State is the model's choice (log entry 1). -/
def Obligations.ConfigurationFixed : Prop :=
  ∀ s t : State, step s = .next t → t.config = s.config

/-- R325, R342, R343 (the spec's choices D19, D30): in a step the keys change only by key_sample, and draw_flag falls
only by clear_draw_flag, as the schedule (log entry 7) lists them. -/
def Obligations.KeysAndDrawFlagAreTheHosts : Prop :=
  ∀ s t : State, step s = .next t →
    (t.keys ≠ s.keys → ∃ held rest, s.schedule = .keySample held :: rest) ∧
    (s.drawFlag = true → t.drawFlag = false → ∃ rest, s.schedule = .clearDrawFlag :: rest)

/-- R40, R71, R325 (the spec's choices D12, D19 and inference R71): only 00EE and 2NNN change the stack, only FX33 and
FX55 change a byte of memory, and no instruction changes a key, the configuration (in State by the model's choice, log
entry 1) or the schedule (the model's own, log entry 7). -/
def Obligations.StackAndMemoryWriters : Prop :=
  ∀ (i : Instr) (s t : State), exec i s = .next t →
    (t.stack ≠ s.stack → i = .ret ∨ ∃ nnn, i = .call nnn) ∧
    ((∃ a, memRead t a ≠ memRead s a) → ∃ x, i = .ldBVx x ∨ i = .ldMemVx x) ∧
    t.keys = s.keys ∧ t.config = s.config ∧ t.schedule = s.schedule

/-- R43, R46 (the spec's choices D9, D27): only 00E0 and DXYN change the grid or draw_flag, 00E0 the flag only when
CLS_SETS_DRAW_FLAG, and no instruction sets draw_flag to false. -/
def Obligations.DisplayWriters : Prop :=
  ∀ (i : Instr) (s t : State), exec i s = .next t →
    (t.display ≠ s.display → i = .cls ∨ ∃ x y n, i = .drw x y n) ∧
    (t.drawFlag ≠ s.drawFlag →
      t.drawFlag = true ∧ ((i = .cls ∧ s.config.clsSetsDrawFlag = true) ∨ ∃ x y n, i = .drw x y n))

/-- R37, R38, R39 (the spec's choice D2 and general knowledge G4): only ANNN, FX1E, FX29 and, under
save_load_increment, FX55 and FX65 change I; only FX15 changes DT; only FX18 changes ST. -/
def Obligations.AddressAndTimerWriters : Prop :=
  ∀ (i : Instr) (s t : State), exec i s = .next t →
    (t.i ≠ s.i → (∃ nnn, i = .ldI nnn) ∨ (∃ x, i = .addIVx x ∨ i = .ldFVx x) ∨
      (s.config.saveLoadIncrement = true ∧ ∃ x, i = .ldMemVx x ∨ i = .ldVxMem x)) ∧
    (t.dt ≠ s.dt → ∃ x, i = .ldDtVx x) ∧
    (t.st ≠ s.st → ∃ x, i = .ldStVx x)

/-- R32, R33, R36 (the spec's choices D4, D8 and inferences R33, R36): a register changes only as a destination, or as
the flag VF of an instruction that writes the flag; and the flag it leaves is 0 or 1 unless it waits (a function of
the state before, log entry 9). -/
def Obligations.RegisterWriters : Prop :=
  ∀ (i : Instr) (s t : State), exec i s = .next t →
    (∀ k, getV t k ≠ getV s k → destination i k = true ∨ (k = 15 ∧ flagWriter s.config i = true)) ∧
    (flagWriter s.config i = true → waits i s = false → getV t 15 = 0 ∨ getV t 15 = 1)

/-! ## Register load and arithmetic (41_register_arithmetic.md) -/

/-- R150 (the spec's general knowledge G1, choice D7): VX ← NN. -/
def Obligations.LoadImmediate : Prop :=
  ∀ x nn, decode (wordB 0x6000 x nn) = .ok (.ldImm x nn) ∧
    ∀ s, ∃ t, exec (.ldImm x nn) s = .next t ∧ WritesV s t x nn

/-- R151 (the spec's general knowledge G1, G6, choices D7, D8): VX ← (VX + NN) mod 256, VF not written as a carry. -/
def Obligations.AddImmediate : Prop :=
  ∀ x nn, decode (wordB 0x7000 x nn) = .ok (.addImm x nn) ∧
    ∀ s, ∃ t, exec (.addImm x nn) s = .next t ∧
      WritesV s t x (BitVec.ofNat 8 (((getV s x).toNat + nn.toNat) % 256))

/-- R152 (the spec's general knowledge G1, choice D7): VX ← VY; vf_reset does not apply. -/
def Obligations.CopyRegister : Prop :=
  ∀ x y, decode (wordR 0x8000 x y) = .ok (.ldReg x y) ∧
    ∀ s, ∃ t, exec (.ldReg x y) s = .next t ∧ WritesV s t x (getV s y)

/-- R153, R154, R155: OR, AND, XOR, each bit by bit, with vf_reset. Their opcode numbers are general knowledge (G1),
the reset after the result with X = 15 is choice D4. -/
def Obligations.BitwiseOperations : Prop :=
  BitwiseRule 0x8001 .or (fun a b => a ||| b) ∧ BitwiseRule 0x8002 .and (fun a b => a &&& b) ∧
  BitwiseRule 0x8003 .xor (fun a b => a ^^^ b)

/-- R156: VX ← the sum mod 256, VF ← 1 if the exact sum exceeds 255, else 0. The opcode number is general knowledge
(G1), the order of the two writes choice D4. -/
def Obligations.AddWithCarry : Prop :=
  AluRule 0x8004 .addReg
    (fun s x y => BitVec.ofNat 8 (((getV s x).toNat + (getV s y).toNat) % 256))
    (fun s x y => if (getV s x).toNat + (getV s y).toNat > 255 then 1 else 0)

/-- R157: VX ← (VX − VY) mod 256, VF ← 1 if VX ≥ VY, else 0. The opcode number is general knowledge (G1), the order of
the two writes choice D4. -/
def Obligations.Subtract : Prop :=
  AluRule 0x8005 .sub
    (fun s x y => BitVec.ofNat 8 ((256 + (getV s x).toNat - (getV s y).toNat) % 256))
    (fun s x y => if (getV s x).toNat ≥ (getV s y).toNat then 1 else 0)

/-- R159: VX ← (VY − VX) mod 256, VF ← 1 if VY ≥ VX, else 0. The opcode number is general knowledge (G1), the order of
the two writes choice D4. -/
def Obligations.SubtractReversed : Prop :=
  AluRule 0x8007 .subn
    (fun s x y => BitVec.ofNat 8 ((256 + (getV s y).toNat - (getV s x).toNat) % 256))
    (fun s x y => if (getV s y).toNat ≥ (getV s x).toNat then 1 else 0)

/-- R158: VX ← half the operand, VF ← its least significant bit; the operand is VY when shifting, else VX. The opcode
number is general knowledge (G1), the order of the two writes choice D4. -/
def Obligations.ShiftRight : Prop :=
  AluRule 0x8006 .shr
    (fun s x y => BitVec.ofNat 8 ((shiftOperand s x y).toNat / 2))
    (fun s x y => if (shiftOperand s x y).toNat % 2 = 1 then 1 else 0)

/-- R160: VX ← twice the operand mod 256, VF ← its most significant bit. The opcode number is general knowledge (G1),
the order of the two writes choice D4. -/
def Obligations.ShiftLeft : Prop :=
  AluRule 0x800E .shl
    (fun s x y => BitVec.ofNat 8 ((shiftOperand s x y).toNat * 2 % 256))
    (fun s x y => if (shiftOperand s x y).toNat ≥ 128 then 1 else 0)

/-! ## Control flow (42_control_flow.md) -/

/-- R191: pop the stack into PC; on the empty stack only PC advances. -/
def Obligations.ReturnPops : Prop :=
  decode 0x00EE = .ok .ret ∧ ∀ s : State,
    (s.stack = [] → ∃ t, exec .ret s = .next t ∧ t.pc = s.pc + 2 ∧ UnchangedBut [.pc] s t) ∧
    (∀ rest a, s.stack = rest ++ [a] →
      ∃ t, exec .ret s = .next t ∧ t.pc = a ∧ t.stack = rest ∧ UnchangedBut [.pc, .stack] s t)

/-- R192: PC ← NNN. -/
def Obligations.JumpAbsolute : Prop :=
  ∀ nnn, decode (wordA 0x1000 nnn) = .ok (.jp nnn) ∧
    ∀ s, ∃ t, exec (.jp nnn) s = .next t ∧ t.pc.toNat = nnn.toNat ∧ UnchangedBut [.pc] s t

/-- R193: push PC + 2 and jump; at the cap raise StackOverflow, the state otherwise as before (choices D5, D12); the
word recorded is the instruction's own (DEDUCED, log entry 10). -/
def Obligations.CallPushes : Prop :=
  ∀ nnn, decode (wordA 0x2000 nnn) = .ok (.call nnn) ∧ ∀ s : State,
    (s.config.stackLimit ≠ some s.stack.length →
      ∃ t, exec (.call nnn) s = .next t ∧ t.stack = s.stack ++ [s.pc + 2] ∧ t.pc.toNat = nnn.toNat ∧
        UnchangedBut [.pc, .stack] s t) ∧
    (s.config.stackLimit = some s.stack.length →
      exec (.call nnn) s = .next { s with fault := some ⟨.stackOverflow, wordA 0x2000 nnn, s.pc⟩ })

/-- R194, R195, R196, R197: the comparing skips; their conditions are the spec's general knowledge (G2). -/
def Obligations.ComparingSkips : Prop :=
  (∀ x nn, decode (wordB 0x3000 x nn) = .ok (.seImm x nn) ∧
    ∀ s, SkipsWhen (.seImm x nn) s ((getV s x).toNat = nn.toNat)) ∧
  (∀ x nn, decode (wordB 0x4000 x nn) = .ok (.sneImm x nn) ∧
    ∀ s, SkipsWhen (.sneImm x nn) s ((getV s x).toNat ≠ nn.toNat)) ∧
  (∀ x y, decode (wordR 0x5000 x y) = .ok (.seReg x y) ∧
    ∀ s, SkipsWhen (.seReg x y) s ((getV s x).toNat = (getV s y).toNat)) ∧
  (∀ x y, decode (wordR 0x9000 x y) = .ok (.sneReg x y) ∧
    ∀ s, SkipsWhen (.sneReg x y) s ((getV s x).toNat ≠ (getV s y).toNat))

/-- R198, R199, R203, R303: the key skips (which one skips on held is general knowledge, G3), and their fault (choice
D11); the word recorded is the instruction's own (DEDUCED, log entry 10). -/
def Obligations.KeySkips : Prop :=
  KeySkipRule 0xE09E .skp (fun k => k = .pressed ∨ k = .down) ∧
  KeySkipRule 0xE0A1 .sknp (fun k => k = .none ∨ k = .released)

/-- R200: PC ← V0 + NNN, not reduced to 12 bits. -/
def Obligations.JumpIndexed : Prop :=
  ∀ nnn, decode (wordA 0xB000 nnn) = .ok (.jpV0 nnn) ∧
    ∀ s, ∃ t, exec (.jpV0 nnn) s = .next t ∧ t.pc.toNat = (getV s 0).toNat + nnn.toNat ∧ UnchangedBut [.pc] s t

/-- R201, R140 (choice D24): VX ← the drawn byte and NN, for every draw; the instruction takes one draw (the count of
draws is the model's own, log entry 5). -/
def Obligations.RandomUnderMask : Prop :=
  ∀ x nn, decode (wordB 0xC000 x nn) = .ok (.rnd x nn) ∧
    (∀ (r : Byte) (s : State), ∃ t, drawRandom r x nn s = .next t ∧ WritesV s t x (r &&& nn)) ∧
    ∀ s, ∃ t, exec (.rnd x nn) s = .next t ∧
      (∀ k, getV t k = if k = x then Config.randomByte s.draws &&& nn else getV s k) ∧
      t.pc = s.pc + 2 ∧ t.draws = s.draws + 1 ∧ UnchangedBut [.v, .pc, .draws] s t

/-! ## Display (43_display.md) -/

/-- R230 (general knowledge G5, choice D9): every pixel off, those outside the grid included (DESIGN CHOICE, log entry
14), the grid of its size; draw_flag is set when CLS_SETS_DRAW_FLAG. -/
def Obligations.ClearScreen : Prop :=
  decode 0x00E0 = .ok .cls ∧ ∀ s, ∃ t, exec .cls s = .next t ∧
    (∀ px py, t.display.pixel px py = false) ∧ t.displayFits ∧
    (s.config.clsSetsDrawFlag = true → t.drawFlag = true) ∧
    (s.config.clsSetsDrawFlag = false → t.drawFlag = s.drawFlag) ∧
    t.pc = s.pc + 2 ∧ UnchangedBut [.display, .drawFlag, .pc] s t

/-- R231, R234 (choices D1, D23): a draw that does not stall leaves a pixel on exactly when the pixel XOR the sprite
bits that land on it, counted with multiplicity, is 1; it sets draw_flag, keeps the grid's size, and changes no
register but VF. The stall input is a free value and the count of such inputs the model's own (log entry 6). -/
def Obligations.DrawSpritePixels : Prop :=
  ∀ (x y : Reg) (n : Nibble), decode (wordR (0xD000 + n.toNat) x y) = .ok (.drw x y n) ∧
    ∀ s : State, s.displayFits → 1 ≤ s.config.displayH → (s.config.displayWait && Config.stall s.stalls) = false →
      ∃ t, exec (.drw x y n) s = .next t ∧
        (∀ px py, px < 64 → py < s.config.displayH →
          t.display.pixel px py =
            (s.display.pixel px py ^^ decide (spriteTouches s x y n.toNat px py % 2 = 1))) ∧
        t.displayFits ∧ t.drawFlag = true ∧ (∀ k, k ≠ 15 → getV t k = getV s k) ∧ t.pc = s.pc + 2 ∧
        t.stalls = (if s.config.displayWait = true then s.stalls + 1 else s.stalls) ∧
        UnchangedBut [.v, .pc, .display, .drawFlag, .stalls] s t

/-- R231, R234 (choices D1, D23): after a draw that does not stall, VF is 1 if a drawn bit landed on a pixel that was
on just before that bit was drawn (the earlier rows drawn, none of which shares a column of the same row), and 0
otherwise. The stall input is a free value of the model (log entry 6). -/
def Obligations.DrawSpriteCollision : Prop :=
  ∀ (x y : Reg) (n : Nibble) (s t : State), s.displayFits → 1 ≤ s.config.displayH →
    (s.config.displayWait && Config.stall s.stalls) = false → exec (.drw x y n) s = .next t →
    ((∃ r c, r < n.toNat ∧ c < 8 ∧ spriteDrawn s x y r c = true ∧
        (s.display.pixel (((getV s x).toNat + c) % 64) (((getV s y).toNat + r) % s.config.displayH) ^^
          decide (spriteTouches s x y r (((getV s x).toNat + c) % 64)
            (((getV s y).toNat + r) % s.config.displayH) % 2 = 1)) = true) →
      getV t 15 = 1) ∧
    ((¬∃ r c, r < n.toNat ∧ c < 8 ∧ spriteDrawn s x y r c = true ∧
        (s.display.pixel (((getV s x).toNat + c) % 64) (((getV s y).toNat + r) % s.config.displayH) ^^
          decide (spriteTouches s x y r (((getV s x).toNat + c) % 64)
            (((getV s y).toNat + r) % s.config.displayH) % 2 = 1)) = true) →
      getV t 15 = 0)

/-- R232 (choice D10): the stall input is read only under display_wait; a stall waits with no other effect; without
display_wait it is ignored (the count of stall inputs is the model's own, log entry 6). -/
def Obligations.DrawStalls : Prop :=
  ∀ (x y : Reg) (n : Nibble) (s : State),
    (s.config.displayWait = true →
      exec (.drw x y n) s = drawOrWait (Config.stall s.stalls) x y n { s with stalls := s.stalls + 1 } ∧
      drawOrWait true x y n s = .next s) ∧
    (s.config.displayWait = false → ∀ stall, drawOrWait stall x y n s = exec (.drw x y n) s)

/-- The source's example in R231: drawing the same sprite twice at the same place puts every pixel back; and VF reads
1 after the second draw if some bit is drawn and every pixel under a drawn bit was off before the first, on a display
of at least 16 rows. -/
def Obligations.DrawTwiceRestores : Prop :=
  ∀ (x y : Reg) (n : Nibble) (s t u : State), x ≠ 15 → y ≠ 15 → s.displayFits → 1 ≤ s.config.displayH →
    s.config.displayWait = false → exec (.drw x y n) s = .next t → exec (.drw x y n) t = .next u →
    (∀ px py, px < 64 → py < s.config.displayH → u.display.pixel px py = s.display.pixel px py) ∧
    (16 ≤ s.config.displayH → (∃ r c, r < n.toNat ∧ c < 8 ∧ spriteDrawn s x y r c = true) →
      (∀ r c, r < n.toNat → c < 8 → spriteDrawn s x y r c = true →
        s.display.pixel (((getV s x).toNat + c) % 64) (((getV s y).toNat + r) % s.config.displayH) = false) →
      getV u 15 = 1)

/-! ## Keypad, timers, I, memory block (44_keypad_timer_memory.md) -/

/-- R260, R265: I ← NNN (the spec's general knowledge G1, choice D7), and I ← I + VX modulo 65536 (choice D2). -/
def Obligations.AddressRegister : Prop :=
  (∀ nnn, decode (wordA 0xA000 nnn) = .ok (.ldI nnn) ∧
    ∀ s, WritesI (.ldI nnn) s (BitVec.ofNat 16 nnn.toNat)) ∧
  (∀ x, decode (wordS 0xF01E x) = .ok (.addIVx x) ∧
    ∀ s, WritesI (.addIVx x) s (BitVec.ofNat 16 ((s.i.toNat + (getV s x).toNat) % 65536)))

/-- R269: I ← 0x050 + 5 · VX, the byte not masked and the sum not reduced. -/
def Obligations.GlyphAddress : Prop :=
  ∀ x, decode (wordS 0xF029 x) = .ok (.ldFVx x) ∧ ∀ s, ∃ t, exec (.ldFVx x) s = .next t ∧
    t.i.toNat = 0x050 + (getV s x).toNat * 5 ∧ t.pc = s.pc + 2 ∧ UnchangedBut [.i, .pc] s t

/-- R261, R263, R264: VX ← DT, DT ← VX, ST ← VX; which opcode goes which way is general knowledge (G4). -/
def Obligations.TimerTransfers : Prop :=
  (∀ x, decode (wordS 0xF007 x) = .ok (.ldVxDt x) ∧
    ∀ s, ∃ t, exec (.ldVxDt x) s = .next t ∧ WritesV s t x s.dt) ∧
  (∀ x, decode (wordS 0xF015 x) = .ok (.ldDtVx x) ∧
    ∀ s, ∃ t, exec (.ldDtVx x) s = .next t ∧ t.dt = getV s x ∧ t.pc = s.pc + 2 ∧ UnchangedBut [.dt, .pc] s t) ∧
  (∀ x, decode (wordS 0xF018 x) = .ok (.ldStVx x) ∧
    ∀ s, ∃ t, exec (.ldStVx x) s = .next t ∧ t.st = getV s x ∧ t.pc = s.pc + 2 ∧ UnchangedBut [.st, .pc] s t)

/-- R262 (choice D19): VX ← the lowest Released key; with none Released the instruction leaves the state as it was, to
retry. -/
def Obligations.WaitKey : Prop :=
  ∀ x, decode (wordS 0xF00A x) = .ok (.ldVxK x) ∧ ∀ s : State,
    (∀ k, keyAt s k = .released → (∀ j, j < k → keyAt s j ≠ .released) →
      ∃ t, exec (.ldVxK x) s = .next t ∧ WritesV s t x (BitVec.ofNat 8 k.val)) ∧
    ((∀ k, keyAt s k ≠ .released) → exec (.ldVxK x) s = .next s)

/-- R266: the decimal digits at I, I + 1, I + 2, modulo 4096 (choice D1), and every other byte as before. -/
def Obligations.DecimalDigits : Prop :=
  ∀ x, decode (wordS 0xF033 x) = .ok (.ldBVx x) ∧ ∀ s, ∃ t, exec (.ldBVx x) s = .next t ∧
    (memRead t (effAddr s 0)).toNat = (getV s x).toNat / 100 ∧
    (memRead t (effAddr s 1)).toNat = (getV s x).toNat / 10 % 10 ∧
    (memRead t (effAddr s 2)).toNat = (getV s x).toNat % 10 ∧
    (∀ a, (∀ j, j < 3 → a % 4096 ≠ effAddr s j % 4096) → memRead t a = memRead s a) ∧
    t.pc = s.pc + 2 ∧ UnchangedBut [.mem, .pc] s t

/-- R267 (choices D1, D2): V0 to VX at I, I + 1, …, modulo 4096, every other byte as before, and I as the quirk says.
-/
def Obligations.StoreBlock : Prop :=
  ∀ x, decode (wordS 0xF055 x) = .ok (.ldMemVx x) ∧ ∀ s, ∃ t, exec (.ldMemVx x) s = .next t ∧
    (∀ k : Reg, k ≤ x → memRead t (effAddr s k.val) = getV s k) ∧
    (∀ a, (∀ k : Reg, k ≤ x → a % 4096 ≠ effAddr s k.val % 4096) → memRead t a = memRead s a) ∧
    t.i = iAfterBlock s x ∧ t.pc = s.pc + 2 ∧ UnchangedBut [.mem, .i, .pc] s t

/-- R268 (choices D1, D2): V0 to VX from I, I + 1, …, every other register as before, and I as the quirk says. -/
def Obligations.LoadBlock : Prop :=
  ∀ x, decode (wordS 0xF065 x) = .ok (.ldVxMem x) ∧ ∀ s, ∃ t, exec (.ldVxMem x) s = .next t ∧
    (∀ k : Reg, getV t k = if k ≤ x then memRead s (effAddr s k.val) else getV s k) ∧
    t.i = iAfterBlock s x ∧ t.pc = s.pc + 2 ∧ UnchangedBut [.v, .i, .pc] s t

/-- The source's example in R268: a load from the address of an earlier store gives the stored registers back. -/
def Obligations.StoreThenLoad : Prop :=
  ∀ (x : Reg) (s t u w : State), exec (.ldMemVx x) s = .next t → (∀ a, memRead u a = memRead t a) → u.i = s.i →
    exec (.ldVxMem x) u = .next w → ∀ k : Reg, k ≤ x → getV w k = getV s k

/-- R85, R361 (inferences of the spec's own): the next fetch of any address that a block store wrote sees what it put
there. A fetch at I + k has Vk as its high byte, a fetch one address below has Vk as its low byte, for every k up to X,
X = 0 included; so a fetch at I + k is Vk · 256 + V(k + 1) wherever both bytes were stored. -/
def Obligations.FetchSeesStore : Prop :=
  ∀ (x : Reg) (s t : State), exec (.ldMemVx x) s = .next t →
    (∀ k : Reg, k ≤ x →
      (fetchWord { t with pc := s.i + BitVec.ofNat 16 k.val }).toNat / 256 = (getV s k).toNat ∧
      (fetchWord { t with pc := s.i + BitVec.ofNat 16 k.val - 1 }).toNat % 256 = (getV s k).toNat) ∧
    (∀ k j : Reg, j.val = k.val + 1 → j ≤ x →
      (fetchWord { t with pc := s.i + BitVec.ofNat 16 k.val }).toNat = (getV s k).toNat * 256 + (getV s j).toNat)

/-! ## The host's transactions (60_exceptions.md) -/

/-- R320: each timer goes down by 1 and stops at 0, in every state, halted or not (choice D25); the schedule is the
model's own (log entry 7). -/
def Obligations.TimersCountDown : Prop :=
  ∀ (s : State) (rest : List Transaction), s.schedule = .advanceTimers :: rest →
    ∃ t, step s = .next t ∧ t.dt.toNat = s.dt.toNat - 1 ∧ t.st.toNat = s.st.toNat - 1 ∧ t.schedule = rest ∧
      UnchangedBut [.dt, .st, .schedule] s t

/-- R323, R324 (choice D17; the schedule is the model's own, log entry 7): a sampled key that is held becomes Down if
it was held and Pressed if not; one that is not held becomes Released if it was held and None if not. -/
def Obligations.KeypadTransitions : Prop :=
  ∀ (s : State) (held : Vector Bool 16) (rest : List Transaction), s.schedule = .keySample held :: rest →
    ∃ t, step s = .next t ∧ t.schedule = rest ∧ UnchangedBut [.keys, .schedule] s t ∧
      ∀ k : Reg,
        ((keyAt s k = .pressed ∨ keyAt s k = .down) → keyAt t k = if held[k] = true then .down else .released) ∧
        ((keyAt s k = .none ∨ keyAt s k = .released) → keyAt t k = if held[k] = true then .pressed else .none)

/-- R331, R340, R342: clear_draw_flag clears the flag alone; the reads change nothing but the schedule (the model's
own, log entry 7) and report the flag, the grid, the state, and whether ST is not 0 (choice D22). -/
def Obligations.HostReadsAndClears : Prop :=
  ∀ (s : State) (rest : List Transaction),
    (s.schedule = .clearDrawFlag :: rest →
      ∃ t, step s = .next t ∧ t.drawFlag = false ∧ t.schedule = rest ∧ UnchangedBut [.drawFlag, .schedule] s t) ∧
    (∀ a, a ∈ [Transaction.readDisplay, .readDrawFlag, .readSoundActive, .inspect] → s.schedule = a :: rest →
      step s = .next { s with schedule := rest }) ∧
    reply .readSoundActive s = .bit (decide (s.st.toNat ≠ 0)) ∧ reply .readDrawFlag s = .bit s.drawFlag ∧
    reply .readDisplay s = .grid s.display ∧ reply .inspect s = .state s

/-- R341 (choices D18, D25): a frame is CYCLES_PER_FRAME ticks, then one advance_timers, then the sync point, which
holds neither. In the sync point the one read of draw_flag comes first, then the read of the display, then the one
clearing of draw_flag; and the sound output is read. That the display is read and the flag cleared in every frame, where
R341 does both if the flag is set, is the model's choice (DESIGN CHOICE, log entry 13); so is that this list of a frame
holds no key_sample among its ticks, whose place D18 leaves open (DESIGN CHOICE, log entry 16). -/
def Obligations.FrameContract : Prop :=
  ∀ c : Config, ∃ sync, frameSchedule c = List.replicate c.cyclesPerFrame .tick ++ .advanceTimers :: sync ∧
    .tick ∉ sync ∧ .advanceTimers ∉ sync ∧ [.readDrawFlag, .readDisplay, .clearDrawFlag].Sublist sync ∧
    sync.count .readDrawFlag = 1 ∧ sync.count .clearDrawFlag = 1 ∧ .readSoundActive ∈ sync

/-! ## Reset (10_state.md R49, 70_reset_and_hazards.md) -/

/-- R34, R49, R79: the values that the spec gives for reset: PC, the stack, the keys, draw_flag, the fault record, and
0x00 in every byte outside the font (choices D15, D16; no ROM is loaded in State.reset, log entry 12). -/
def Obligations.ResetGivenValues : Prop :=
  State.reset.pc = 0x200 ∧ State.reset.stack = [] ∧ (∀ k, keyAt State.reset k = .none) ∧
  State.reset.drawFlag = false ∧ State.reset.fault = none ∧
  ∀ a, a < 4096 → (a < 0x050 ∨ 0x09F < a) → memRead State.reset a = 0

/-- R350, R352 (choices D13 to D16, D21, D26): reset places the font and the ROM in a cleared memory and gives every
other part its value, for every configuration and every open reset value; a ROM of more than 3584 bytes is refused. -/
def Obligations.ResetTransaction : Prop :=
  ∀ (c : Config) (values : ResetValues) (rom : List Byte),
    (3584 < rom.length → resetMachine c values rom = .refused .romTooLong) ∧
    (rom.length ≤ 3584 → values.font.length ≤ 0x200 - 0x050 →
      ∃ t, resetMachine c values rom = .next t ∧ t.config = c ∧ t.pc = 0x200 ∧ t.v = values.v ∧ t.i = values.i ∧
        t.dt = values.dt ∧ t.st = values.st ∧ t.display = values.display ∧ t.stack = [] ∧
        (∀ k, keyAt t k = .none) ∧ t.drawFlag = false ∧ t.fault = none ∧ t.mem.wf ∧
        (∀ j, j < values.font.length → memRead t (0x050 + j) = values.font.getD j 0) ∧
        (∀ j, j < rom.length → memRead t (0x200 + j) = rom.getD j 0) ∧
        (∀ a, a < 4096 → ¬(0x050 ≤ a ∧ a < 0x050 + values.font.length) → ¬(0x200 ≤ a ∧ a < 0x200 + rom.length) →
          memRead t a = 0))

/-- R350 with the runner values of 95_test_vectors.md (the model's choices, log entries 1 to 4 and 12): State.reset is
what the transaction gives for the empty ROM. -/
def Obligations.ResetIsAnInstance : Prop :=
  resetMachine Config.runner (runnerValues 32) [] = .next State.reset
end

