-- ==== Sys2Proof/Laws/Decode.lean ====
section
/-! SUPPORT. Decoding and encoding as arithmetic: when a row selects a word, what the fields of a word are, and the
words of the encoder, so that no proof unfolds a mask or an append. -/

namespace Sys2Proof

/-! ## Masks -/

/-- A word masked by two disjoint masks is the sum of its parts. -/
theorem toNat_and_or (w a b : Word) (h : a &&& b = 0) :
    (w &&& (a ||| b)).toNat = (w &&& a).toNat + (w &&& b).toNat := by
  have h0 : (w &&& a) &&& (w &&& b) = 0 := by
    rw [show (w &&& a) &&& (w &&& b) = w &&& (a &&& b) by ac_nf, h]
    exact BitVec.and_zero
  rw [BitVec.and_or_distrib_left, ← BitVec.add_eq_or_of_and_eq_zero _ _ h0, BitVec.toNat_add_of_and_eq_zero h0]

/-- A word masked by ones is its remainder. -/
theorem toNat_and_ones (w : Word) (k : Nat) (h : k ≤ 16) :
    (w &&& BitVec.ofNat 16 (2 ^ k - 1)).toNat = w.toNat % 2 ^ k := by
  have hk : 2 ^ k ≤ 2 ^ 16 := Nat.pow_le_pow_right (by decide) h
  have hp : 0 < 2 ^ k := Nat.two_pow_pos k
  rw [BitVec.toNat_and, BitVec.toNat_ofNat, Nat.mod_eq_of_lt (by omega), Nat.and_two_pow_sub_one_eq_mod]

/-- The class nibble of a word. -/
theorem toNat_and_class (w : Word) : (w &&& 0xF000).toNat = w.toNat / 4096 * 4096 := by
  have h := toNat_and_or w 0xF000 0x0FFF (by decide)
  rw [show (0xF000 ||| 0x0FFF : Word) = BitVec.ofNat 16 (2 ^ 16 - 1) by decide, toNat_and_ones w 16 (by decide),
    show (0x0FFF : Word) = BitVec.ofNat 16 (2 ^ 12 - 1) by decide, toNat_and_ones w 12 (by decide)] at h
  have := w.isLt
  omega

/-- A row with the full mask (format Z) selects its own word. -/
theorem selects_word (c w : Word) (f : Fields → Instr) :
    (Row.mk c 0xFFFF f).selects w = decide (w.toNat = c.toNat) := by
  rw [Row.selects, show (0xFFFF : Word) = BitVec.allOnes 16 by decide, BitVec.and_allOnes, Bool.eq_iff_iff,
    beq_iff_eq, decide_eq_true_eq, ← BitVec.toNat_inj]

/-- A row of formats A, B and D selects the words of its class. -/
theorem selects_class (c w : Word) (f : Fields → Instr) (h : c.toNat % 4096 = 0) :
    (Row.mk c 0xF000 f).selects w = decide (w.toNat / 4096 = c.toNat / 4096) := by
  rw [Row.selects, Bool.eq_iff_iff, beq_iff_eq, decide_eq_true_eq, ← BitVec.toNat_inj, toNat_and_class]
  show _ = c.toNat ↔ _
  omega

/-- A row of format R selects the words of its class and its last nibble. -/
theorem selects_nibble (c w : Word) (f : Fields → Instr) (h : c.toNat % 4096 < 16) :
    (Row.mk c 0xF00F f).selects w = decide (w.toNat / 4096 = c.toNat / 4096 ∧ w.toNat % 16 = c.toNat % 16) := by
  rw [Row.selects, Bool.eq_iff_iff, beq_iff_eq, decide_eq_true_eq, ← BitVec.toNat_inj,
    show (0xF00F : Word) = 0xF000 ||| BitVec.ofNat 16 (2 ^ 4 - 1) by decide, toNat_and_or _ _ _ (by decide),
    toNat_and_class, toNat_and_ones w 4 (by decide)]
  show _ = c.toNat ↔ _
  omega

/-- A row of format S selects the words of its class and its last byte. -/
theorem selects_byte (c w : Word) (f : Fields → Instr) (h : c.toNat % 4096 < 256) :
    (Row.mk c 0xF0FF f).selects w = decide (w.toNat / 4096 = c.toNat / 4096 ∧ w.toNat % 256 = c.toNat % 256) := by
  rw [Row.selects, Bool.eq_iff_iff, beq_iff_eq, decide_eq_true_eq, ← BitVec.toNat_inj,
    show (0xF0FF : Word) = 0xF000 ||| BitVec.ofNat 16 (2 ^ 8 - 1) by decide, toNat_and_or _ _ _ (by decide),
    toNat_and_class, toNat_and_ones w 8 (by decide)]
  show _ = c.toNat ↔ _
  omega

/-! ## Fields of a word (R101) -/

theorem fieldsOf_x (w : Word) : (fieldsOf w).x.val = w.toNat / 256 % 16 := by
  simp [fieldsOf, nibbleAt, Nat.shiftRight_eq_div_pow]

theorem fieldsOf_y (w : Word) : (fieldsOf w).y.val = w.toNat / 16 % 16 := by
  simp [fieldsOf, nibbleAt, Nat.shiftRight_eq_div_pow]

theorem fieldsOf_n (w : Word) : (fieldsOf w).n.toNat = w.toNat % 16 := by
  simp [fieldsOf, nibbleAt]

theorem fieldsOf_nn (w : Word) : (fieldsOf w).nn.toNat = w.toNat % 256 := by
  simp [fieldsOf]

theorem fieldsOf_nnn (w : Word) : (fieldsOf w).nnn.toNat = w.toNat % 4096 := by
  simp [fieldsOf]

/-! ## Words of the encoder (R102) -/

/-- The value of an append. -/
theorem toNat_append_eq {m k : Nat} (a : BitVec m) (b : BitVec k) : (a ++ b).toNat = a.toNat * 2 ^ k + b.toNat := by
  rw [BitVec.toNat_append, ← Nat.shiftLeft_add_eq_or_of_lt b.isLt, Nat.shiftLeft_eq]

theorem toNat_encodeA (c : Nibble) (nnn : Addr) : (encodeA c nnn).toNat = c.toNat * 4096 + nnn.toNat :=
  toNat_append_eq c nnn

theorem toNat_regNibble (x : Reg) : (regNibble x).toNat = x.val := rfl

theorem toNat_encodeB (c : Nibble) (x : Reg) (nn : Byte) :
    (encodeB c x nn).toNat = c.toNat * 4096 + x.val * 256 + nn.toNat := by
  calc (encodeB c x nn).toNat = (c ++ regNibble x).toNat * 2 ^ 8 + nn.toNat := toNat_append_eq (c ++ regNibble x) nn
    _ = (c.toNat * 2 ^ 4 + x.val) * 2 ^ 8 + nn.toNat := by rw [toNat_append_eq, toNat_regNibble]
    _ = _ := by ring

theorem toNat_encodeR (c : Nibble) (x y : Reg) (n : Nibble) :
    (encodeR c x y n).toNat = c.toNat * 4096 + x.val * 256 + y.val * 16 + n.toNat := by
  calc (encodeR c x y n).toNat = (c ++ regNibble x ++ regNibble y).toNat * 2 ^ 4 + n.toNat :=
        toNat_append_eq (c ++ regNibble x ++ regNibble y) n
    _ = ((c.toNat * 2 ^ 4 + x.val) * 2 ^ 4 + y.val) * 2 ^ 4 + n.toNat := by
        rw [toNat_append_eq, toNat_append_eq, toNat_regNibble, toNat_regNibble]
    _ = _ := by ring

/-- The bytes of a word, put together again (R75). -/
theorem wordOfBytes_bytes (w : Word) : wordOfBytes (w.extractLsb' 8 8) (w.extractLsb' 0 8) = w := by
  apply BitVec.eq_of_toNat_eq
  rw [wordOfBytes, toNat_append_eq]
  have := w.isLt
  simp only [BitVec.extractLsb'_toNat, Nat.shiftRight_eq_div_pow]
  omega

/-- Decoding the bytes of a word decodes the word, and consumes exactly two bytes (R100). -/
theorem decodeBytes_word (w : Word) (rest : List Byte) :
    decodeBytes (bytesOfWord w ++ rest) = (decode w).map (fun i => (i, rest)) := by
  simp only [bytesOfWord, List.cons_append, List.nil_append, decodeBytes, wordOfBytes_bytes]
  cases decode w <;> rfl

end Sys2Proof
end

