-- ==== Sys2Proof/Laws/Display.lean ====
section
/-! SUPPORT. The laws of the pixel grid, and what drawing keeps of it. -/

namespace Sys2Proof.Machine

/-- Setting a pixel of the grid changes that pixel alone. -/
theorem Display.pixel_setPixel (d : Display) (x y : Nat) (b : Bool) (x' y' : Nat) :
    (d.setPixel x y b).pixel x' y' =
      if x' = x ∧ y' = y ∧ x < displayW ∧ y < d.length then b else d.pixel x' y' := by
  unfold Display.setPixel Display.pixel
  rw [List.getElem?_modify]
  by_cases hy : y = y'
  · subst hy
    by_cases hl : y < d.length
    · rw [List.getElem?_eq_getElem hl]
      by_cases hx : x' = x
      · subst hx
        by_cases hw : x' < displayW
        · simp [hl, hw]
        · simp [hl, hw]
      · simp [hx, Ne.symm hx]
    · simp [hl]
  · simp [hy, Ne.symm hy]

@[simp] theorem Display.length_setPixel (d : Display) (x y : Nat) (b : Bool) :
    (d.setPixel x y b).length = d.length := by
  simp [Display.setPixel]

@[simp] theorem Display.length_blank (h : Nat) : (Display.blank h).length = h := by
  simp [Display.blank]

/-- Every pixel of a blank grid is off. -/
@[simp] theorem Display.pixel_blank (h x y : Nat) : (Display.blank h).pixel x y = false := by
  unfold Display.pixel Display.blank
  rw [List.getElem?_replicate]
  split
  · by_cases hx : x < displayW <;> simp [hx]
  · rfl

/-- Drawing a bit keeps the size of the grid. -/
theorem drawBit_length (cfg : Config) (sx sy : Nat) (row : Byte) (y x : Nat) (c : Canvas) :
    (drawBit cfg sx sy row y x c).grid.length = c.grid.length := by
  unfold drawBit plotPixel
  split <;> simp

theorem drawCols_length (cfg : Config) (sx sy : Nat) (row : Byte) (y k : Nat) (c : Canvas) :
    (drawCols cfg sx sy row y k c).grid.length = c.grid.length := by
  induction k with
  | zero => rfl
  | succ k ih => rw [drawCols, drawBit_length, ih]

theorem drawRows_length (s : State) (sx sy h : Nat) (c : Canvas) :
    (drawRows s sx sy h c).grid.length = c.grid.length := by
  induction h with
  | zero => rfl
  | succ h ih => rw [drawRows, drawCols_length, ih]

/-- Drawing a sprite keeps the size of the grid. -/
theorem drawSprite_length (s : State) (x y : Reg) (n : Nibble) :
    (drawSprite s x y n).grid.length = s.display.length :=
  drawRows_length s _ _ _ _

end Sys2Proof.Machine
end

