-- ==== Sys2Proof/Laws/State.lean ====
section
/-! SUPPORT. Each update of the state, field by field: one lemma per field per update, so that no proof unfolds a
record update. -/

namespace Sys2Proof.Machine

variable (s : State)

/-! ### setV -/

@[simp] theorem setV_v (x : Reg) (b : Byte) : (setV s x b).v = s.v.set x b := rfl
@[simp] theorem setV_i (x : Reg) (b : Byte) : (setV s x b).i = s.i := rfl
@[simp] theorem setV_pc (x : Reg) (b : Byte) : (setV s x b).pc = s.pc := rfl
@[simp] theorem setV_stack (x : Reg) (b : Byte) : (setV s x b).stack = s.stack := rfl
@[simp] theorem setV_dt (x : Reg) (b : Byte) : (setV s x b).dt = s.dt := rfl
@[simp] theorem setV_st (x : Reg) (b : Byte) : (setV s x b).st = s.st := rfl
@[simp] theorem setV_mem (x : Reg) (b : Byte) : (setV s x b).mem = s.mem := rfl
@[simp] theorem setV_display (x : Reg) (b : Byte) : (setV s x b).display = s.display := rfl
@[simp] theorem setV_keys (x : Reg) (b : Byte) : (setV s x b).keys = s.keys := rfl
@[simp] theorem setV_drawFlag (x : Reg) (b : Byte) : (setV s x b).drawFlag = s.drawFlag := rfl
@[simp] theorem setV_fault (x : Reg) (b : Byte) : (setV s x b).fault = s.fault := rfl
@[simp] theorem setV_config (x : Reg) (b : Byte) : (setV s x b).config = s.config := rfl
@[simp] theorem setV_schedule (x : Reg) (b : Byte) : (setV s x b).schedule = s.schedule := rfl
@[simp] theorem setV_draws (x : Reg) (b : Byte) : (setV s x b).draws = s.draws := rfl
@[simp] theorem setV_stalls (x : Reg) (b : Byte) : (setV s x b).stalls = s.stalls := rfl

/-! ### setVF -/

@[simp] theorem setVF_v (b : Byte) : (setVF s b).v = s.v.set Reg.f b := rfl
@[simp] theorem setVF_i (b : Byte) : (setVF s b).i = s.i := rfl
@[simp] theorem setVF_pc (b : Byte) : (setVF s b).pc = s.pc := rfl
@[simp] theorem setVF_stack (b : Byte) : (setVF s b).stack = s.stack := rfl
@[simp] theorem setVF_dt (b : Byte) : (setVF s b).dt = s.dt := rfl
@[simp] theorem setVF_st (b : Byte) : (setVF s b).st = s.st := rfl
@[simp] theorem setVF_mem (b : Byte) : (setVF s b).mem = s.mem := rfl
@[simp] theorem setVF_display (b : Byte) : (setVF s b).display = s.display := rfl
@[simp] theorem setVF_keys (b : Byte) : (setVF s b).keys = s.keys := rfl
@[simp] theorem setVF_drawFlag (b : Byte) : (setVF s b).drawFlag = s.drawFlag := rfl
@[simp] theorem setVF_fault (b : Byte) : (setVF s b).fault = s.fault := rfl
@[simp] theorem setVF_config (b : Byte) : (setVF s b).config = s.config := rfl
@[simp] theorem setVF_schedule (b : Byte) : (setVF s b).schedule = s.schedule := rfl
@[simp] theorem setVF_draws (b : Byte) : (setVF s b).draws = s.draws := rfl
@[simp] theorem setVF_stalls (b : Byte) : (setVF s b).stalls = s.stalls := rfl

/-! ### setI -/

@[simp] theorem setI_v (w : Word) : (setI s w).v = s.v := rfl
@[simp] theorem setI_i (w : Word) : (setI s w).i = w := rfl
@[simp] theorem setI_pc (w : Word) : (setI s w).pc = s.pc := rfl
@[simp] theorem setI_stack (w : Word) : (setI s w).stack = s.stack := rfl
@[simp] theorem setI_dt (w : Word) : (setI s w).dt = s.dt := rfl
@[simp] theorem setI_st (w : Word) : (setI s w).st = s.st := rfl
@[simp] theorem setI_mem (w : Word) : (setI s w).mem = s.mem := rfl
@[simp] theorem setI_display (w : Word) : (setI s w).display = s.display := rfl
@[simp] theorem setI_keys (w : Word) : (setI s w).keys = s.keys := rfl
@[simp] theorem setI_drawFlag (w : Word) : (setI s w).drawFlag = s.drawFlag := rfl
@[simp] theorem setI_fault (w : Word) : (setI s w).fault = s.fault := rfl
@[simp] theorem setI_config (w : Word) : (setI s w).config = s.config := rfl
@[simp] theorem setI_schedule (w : Word) : (setI s w).schedule = s.schedule := rfl
@[simp] theorem setI_draws (w : Word) : (setI s w).draws = s.draws := rfl
@[simp] theorem setI_stalls (w : Word) : (setI s w).stalls = s.stalls := rfl

/-! ### setPc -/

@[simp] theorem setPc_v (w : Word) : (setPc s w).v = s.v := rfl
@[simp] theorem setPc_i (w : Word) : (setPc s w).i = s.i := rfl
@[simp] theorem setPc_pc (w : Word) : (setPc s w).pc = w := rfl
@[simp] theorem setPc_stack (w : Word) : (setPc s w).stack = s.stack := rfl
@[simp] theorem setPc_dt (w : Word) : (setPc s w).dt = s.dt := rfl
@[simp] theorem setPc_st (w : Word) : (setPc s w).st = s.st := rfl
@[simp] theorem setPc_mem (w : Word) : (setPc s w).mem = s.mem := rfl
@[simp] theorem setPc_display (w : Word) : (setPc s w).display = s.display := rfl
@[simp] theorem setPc_keys (w : Word) : (setPc s w).keys = s.keys := rfl
@[simp] theorem setPc_drawFlag (w : Word) : (setPc s w).drawFlag = s.drawFlag := rfl
@[simp] theorem setPc_fault (w : Word) : (setPc s w).fault = s.fault := rfl
@[simp] theorem setPc_config (w : Word) : (setPc s w).config = s.config := rfl
@[simp] theorem setPc_schedule (w : Word) : (setPc s w).schedule = s.schedule := rfl
@[simp] theorem setPc_draws (w : Word) : (setPc s w).draws = s.draws := rfl
@[simp] theorem setPc_stalls (w : Word) : (setPc s w).stalls = s.stalls := rfl

/-! ### setDt -/

@[simp] theorem setDt_v (b : Byte) : (setDt s b).v = s.v := rfl
@[simp] theorem setDt_i (b : Byte) : (setDt s b).i = s.i := rfl
@[simp] theorem setDt_pc (b : Byte) : (setDt s b).pc = s.pc := rfl
@[simp] theorem setDt_stack (b : Byte) : (setDt s b).stack = s.stack := rfl
@[simp] theorem setDt_dt (b : Byte) : (setDt s b).dt = b := rfl
@[simp] theorem setDt_st (b : Byte) : (setDt s b).st = s.st := rfl
@[simp] theorem setDt_mem (b : Byte) : (setDt s b).mem = s.mem := rfl
@[simp] theorem setDt_display (b : Byte) : (setDt s b).display = s.display := rfl
@[simp] theorem setDt_keys (b : Byte) : (setDt s b).keys = s.keys := rfl
@[simp] theorem setDt_drawFlag (b : Byte) : (setDt s b).drawFlag = s.drawFlag := rfl
@[simp] theorem setDt_fault (b : Byte) : (setDt s b).fault = s.fault := rfl
@[simp] theorem setDt_config (b : Byte) : (setDt s b).config = s.config := rfl
@[simp] theorem setDt_schedule (b : Byte) : (setDt s b).schedule = s.schedule := rfl
@[simp] theorem setDt_draws (b : Byte) : (setDt s b).draws = s.draws := rfl
@[simp] theorem setDt_stalls (b : Byte) : (setDt s b).stalls = s.stalls := rfl

/-! ### setSt -/

@[simp] theorem setSt_v (b : Byte) : (setSt s b).v = s.v := rfl
@[simp] theorem setSt_i (b : Byte) : (setSt s b).i = s.i := rfl
@[simp] theorem setSt_pc (b : Byte) : (setSt s b).pc = s.pc := rfl
@[simp] theorem setSt_stack (b : Byte) : (setSt s b).stack = s.stack := rfl
@[simp] theorem setSt_dt (b : Byte) : (setSt s b).dt = s.dt := rfl
@[simp] theorem setSt_st (b : Byte) : (setSt s b).st = b := rfl
@[simp] theorem setSt_mem (b : Byte) : (setSt s b).mem = s.mem := rfl
@[simp] theorem setSt_display (b : Byte) : (setSt s b).display = s.display := rfl
@[simp] theorem setSt_keys (b : Byte) : (setSt s b).keys = s.keys := rfl
@[simp] theorem setSt_drawFlag (b : Byte) : (setSt s b).drawFlag = s.drawFlag := rfl
@[simp] theorem setSt_fault (b : Byte) : (setSt s b).fault = s.fault := rfl
@[simp] theorem setSt_config (b : Byte) : (setSt s b).config = s.config := rfl
@[simp] theorem setSt_schedule (b : Byte) : (setSt s b).schedule = s.schedule := rfl
@[simp] theorem setSt_draws (b : Byte) : (setSt s b).draws = s.draws := rfl
@[simp] theorem setSt_stalls (b : Byte) : (setSt s b).stalls = s.stalls := rfl

/-! ### advance -/

@[simp] theorem advance_v : (advance s).v = s.v := rfl
@[simp] theorem advance_i : (advance s).i = s.i := rfl
@[simp] theorem advance_pc : (advance s).pc = s.pc + 2 := rfl
@[simp] theorem advance_stack : (advance s).stack = s.stack := rfl
@[simp] theorem advance_dt : (advance s).dt = s.dt := rfl
@[simp] theorem advance_st : (advance s).st = s.st := rfl
@[simp] theorem advance_mem : (advance s).mem = s.mem := rfl
@[simp] theorem advance_display : (advance s).display = s.display := rfl
@[simp] theorem advance_keys : (advance s).keys = s.keys := rfl
@[simp] theorem advance_drawFlag : (advance s).drawFlag = s.drawFlag := rfl
@[simp] theorem advance_fault : (advance s).fault = s.fault := rfl
@[simp] theorem advance_config : (advance s).config = s.config := rfl
@[simp] theorem advance_schedule : (advance s).schedule = s.schedule := rfl
@[simp] theorem advance_draws : (advance s).draws = s.draws := rfl
@[simp] theorem advance_stalls : (advance s).stalls = s.stalls := rfl

/-! ### memWrite -/

@[simp] theorem memWrite_v (a : Nat) (b : Byte) : (memWrite s a b).v = s.v := rfl
@[simp] theorem memWrite_i (a : Nat) (b : Byte) : (memWrite s a b).i = s.i := rfl
@[simp] theorem memWrite_pc (a : Nat) (b : Byte) : (memWrite s a b).pc = s.pc := rfl
@[simp] theorem memWrite_stack (a : Nat) (b : Byte) : (memWrite s a b).stack = s.stack := rfl
@[simp] theorem memWrite_dt (a : Nat) (b : Byte) : (memWrite s a b).dt = s.dt := rfl
@[simp] theorem memWrite_st (a : Nat) (b : Byte) : (memWrite s a b).st = s.st := rfl
@[simp] theorem memWrite_mem (a : Nat) (b : Byte) : (memWrite s a b).mem = s.mem.write (a % 4096) b := rfl
@[simp] theorem memWrite_display (a : Nat) (b : Byte) : (memWrite s a b).display = s.display := rfl
@[simp] theorem memWrite_keys (a : Nat) (b : Byte) : (memWrite s a b).keys = s.keys := rfl
@[simp] theorem memWrite_drawFlag (a : Nat) (b : Byte) : (memWrite s a b).drawFlag = s.drawFlag := rfl
@[simp] theorem memWrite_fault (a : Nat) (b : Byte) : (memWrite s a b).fault = s.fault := rfl
@[simp] theorem memWrite_config (a : Nat) (b : Byte) : (memWrite s a b).config = s.config := rfl
@[simp] theorem memWrite_schedule (a : Nat) (b : Byte) : (memWrite s a b).schedule = s.schedule := rfl
@[simp] theorem memWrite_draws (a : Nat) (b : Byte) : (memWrite s a b).draws = s.draws := rfl
@[simp] theorem memWrite_stalls (a : Nat) (b : Byte) : (memWrite s a b).stalls = s.stalls := rfl

/-! ### push -/

@[simp] theorem push_v (w : Word) : (push s w).v = s.v := rfl
@[simp] theorem push_i (w : Word) : (push s w).i = s.i := rfl
@[simp] theorem push_pc (w : Word) : (push s w).pc = s.pc := rfl
@[simp] theorem push_stack (w : Word) : (push s w).stack = s.stack ++ [w] := rfl
@[simp] theorem push_dt (w : Word) : (push s w).dt = s.dt := rfl
@[simp] theorem push_st (w : Word) : (push s w).st = s.st := rfl
@[simp] theorem push_mem (w : Word) : (push s w).mem = s.mem := rfl
@[simp] theorem push_display (w : Word) : (push s w).display = s.display := rfl
@[simp] theorem push_keys (w : Word) : (push s w).keys = s.keys := rfl
@[simp] theorem push_drawFlag (w : Word) : (push s w).drawFlag = s.drawFlag := rfl
@[simp] theorem push_fault (w : Word) : (push s w).fault = s.fault := rfl
@[simp] theorem push_config (w : Word) : (push s w).config = s.config := rfl
@[simp] theorem push_schedule (w : Word) : (push s w).schedule = s.schedule := rfl
@[simp] theorem push_draws (w : Word) : (push s w).draws = s.draws := rfl
@[simp] theorem push_stalls (w : Word) : (push s w).stalls = s.stalls := rfl

end Sys2Proof.Machine
end

