-- ==== Sys2Proof/Laws/Memory.lean ====
section
/-! SUPPORT. The laws of memory: a read after a write, and the canonical form that every memory operation keeps. -/

namespace Sys2Proof.Machine

/-! ## Reading after putting, dropping and writing -/

theorem Memory.lookup_put (a : Nat) (w : Byte) (m : Memory) (b : Nat) :
    (Memory.put a w m).lookup b = if b = a then w else m.lookup b := by
  induction m with
  | nil => simp [Memory.put, Memory.lookup]
  | cons c rest ih =>
    obtain ⟨k, u⟩ := c
    simp only [Memory.put]
    split
    · simp [Memory.lookup]
    · split
      · rename_i h
        subst h
        simp only [Memory.lookup]
        split <;> rfl
      · rename_i h
        simp only [Memory.lookup, ih]
        split
        · rename_i hb
          rw [if_neg (by omega)]
        · rfl

theorem Memory.lookup_drop (a : Nat) (m : Memory) (b : Nat) :
    (Memory.drop a m).lookup b = if b = a then Memory.unlisted a else m.lookup b := by
  induction m with
  | nil =>
    simp only [Memory.drop, List.filter_nil, Memory.lookup]
    split <;> simp_all
  | cons c rest ih =>
    obtain ⟨k, u⟩ := c
    simp only [Memory.drop] at ih ⊢
    by_cases h : k = a
    · subst h
      simp only [List.filter_cons, ne_eq, not_true_eq_false, decide_false, Bool.false_eq_true, if_false, ih,
        Memory.lookup]
      split <;> rfl
    · simp only [List.filter_cons, ne_eq, h, not_false_eq_true, decide_true, if_true, Memory.lookup, ih]
      split
      · rename_i hb
        rw [if_neg (by omega)]
      · rfl

/-- What a write does, read by read. -/
theorem Memory.lookup_write (m : Memory) (a : Nat) (w : Byte) (b : Nat) :
    (m.write a w).lookup b = if b = a then w else m.lookup b := by
  unfold Memory.write
  split
  · rename_i h
    rw [Memory.lookup_drop, h]
  · exact Memory.lookup_put a w m b

/-- A write is seen by a read of the same address modulo 4096, and by no other (R72, R77). -/
theorem memRead_memWrite (s : State) (a b : Nat) (w : Byte) :
    memRead (memWrite s a w) b = if b % 4096 = a % 4096 then w else memRead s b :=
  Memory.lookup_write s.mem (a % 4096) w (b % 4096)

/-- Memory is read modulo 4096 (R72). -/
@[simp] theorem memRead_mod (s : State) (a : Nat) : memRead s (a % 4096) = memRead s a := by
  simp [memRead]

/-- Reading depends on memory alone. -/
theorem memRead_congr {s t : State} (h : t.mem = s.mem) (a : Nat) : memRead t a = memRead s a := by
  simp [memRead, h]

/-! ## The canonical form -/

theorem Memory.wf_nil : Memory.wf [] := by simp [Memory.wf]

theorem Memory.wf_drop {m : Memory} (h : m.wf) (a : Nat) : (Memory.drop a m).wf := by
  refine ⟨h.1.filter _, fun c hc => h.2 c ?_⟩
  simp only [Memory.drop, List.mem_filter] at hc
  exact hc.1

theorem Memory.mem_put {a : Nat} {w : Byte} {m : Memory} {c : Host.Cell} (h : c ∈ Memory.put a w m) :
    c = (a, w) ∨ c ∈ m := by
  induction m with
  | nil => simpa [Memory.put] using h
  | cons d rest ih =>
    simp only [Memory.put] at h
    split at h
    · simpa using h
    · split at h
      · rcases List.mem_cons.mp h with h | h
        · exact .inl h
        · exact .inr (List.mem_cons_of_mem _ h)
      · rcases List.mem_cons.mp h with h | h
        · exact .inr (h ▸ List.mem_cons_self)
        · exact (ih h).imp_right (List.mem_cons_of_mem _)

theorem Memory.sorted_put (a : Nat) (w : Byte) {m : Memory} (h : m.Pairwise (fun c d => c.1 < d.1)) :
    (Memory.put a w m).Pairwise (fun c d => c.1 < d.1) := by
  induction m with
  | nil => simp [Memory.put]
  | cons d rest ih =>
    rw [List.pairwise_cons] at h
    simp only [Memory.put]
    split
    · rename_i hlt
      rw [List.pairwise_cons, List.pairwise_cons]
      refine ⟨fun c hc => ?_, h⟩
      rcases List.mem_cons.mp hc with rfl | hc
      · exact hlt
      · exact Nat.lt_trans hlt (h.1 c hc)
    · split
      · rename_i heq
        rw [List.pairwise_cons]
        exact ⟨fun c hc => heq ▸ h.1 c hc, h.2⟩
      · rename_i hle hne
        rw [List.pairwise_cons]
        refine ⟨fun c hc => ?_, ih h.2⟩
        rcases Memory.mem_put hc with rfl | hc
        · show d.1 < a
          omega
        · exact h.1 c hc

theorem Memory.wf_put {m : Memory} (h : m.wf) {a : Nat} {w : Byte} (ha : a < 4096)
    (hw : w ≠ Memory.unlisted a) : (Memory.put a w m).wf := by
  refine ⟨Memory.sorted_put a w h.1, fun c hc => ?_⟩
  rcases Memory.mem_put hc with rfl | hc
  · exact ⟨ha, hw⟩
  · exact h.2 c hc

/-- A write keeps the canonical form. -/
theorem Memory.wf_write {m : Memory} (h : m.wf) {a : Nat} (ha : a < 4096) (w : Byte) : (m.write a w).wf := by
  unfold Memory.write
  split
  · exact Memory.wf_drop h a
  · rename_i hw
    exact Memory.wf_put h ha hw

/-- A store keeps the canonical form. -/
theorem memWrite_wf {s : State} (h : s.mem.wf) (a : Nat) (w : Byte) : (memWrite s a w).mem.wf :=
  Memory.wf_write h (Nat.mod_lt _ (by decide)) w

/-- `copy_in` keeps the canonical form. -/
theorem Memory.wf_copyIn (bytes : List Byte) : ∀ {m : Memory}, m.wf → ∀ addr, (m.copyIn addr bytes).wf := by
  induction bytes with
  | nil => intro m h _; exact h
  | cons w rest ih =>
    intro m h addr
    exact ih (Memory.wf_write h (Nat.mod_lt _ (by decide)) w) (addr + 1)

/-- `clear` leaves a memory in canonical form. -/
theorem Memory.wf_cleared : Memory.cleared.wf := Memory.wf_copyIn _ Memory.wf_nil _

/-- The memory of State.reset is in canonical form. -/
theorem reset_mem_wf : State.reset.mem.wf := Memory.wf_nil

/-! ## `copy_in` and `clear`, byte by byte -/

/-- What `copy_in` leaves where its region does not wrap: its bytes, and every other byte as it was (R81). -/
theorem Memory.lookup_copyIn (bytes : List Byte) : ∀ (m : Memory) (addr : Nat), addr + bytes.length ≤ 4096 → ∀ a,
    (m.copyIn addr bytes).lookup a =
      if addr ≤ a ∧ a < addr + bytes.length then bytes.getD (a - addr) 0 else m.lookup a := by
  induction bytes with
  | nil =>
    intro m addr _ a
    rw [if_neg (by simp only [List.length_nil]; omega)]
    rfl
  | cons w rest ih =>
    intro m addr h a
    simp only [List.length_cons] at h ⊢
    simp only [Memory.copyIn]
    rw [ih _ _ (by omega), Memory.lookup_write, Nat.mod_eq_of_lt (show addr < 4096 by omega)]
    by_cases h1 : a = addr
    · subst h1
      rw [if_neg (by omega), if_pos rfl, if_pos (by omega)]
      simp
    · by_cases h2 : addr + 1 ≤ a ∧ a < addr + 1 + rest.length
      · rw [if_pos h2, if_pos (by omega), show a - addr = (a - (addr + 1)) + 1 by omega]
        simp
      · rw [if_neg h2, if_neg h1, if_neg (by omega)]

theorem fontData_length : fontData.length = 80 := by decide

/-- After `clear` every byte reads 0x00 (R81). -/
theorem Memory.lookup_cleared (a : Nat) : Memory.cleared.lookup a = 0 := by
  unfold Memory.cleared
  rw [Memory.lookup_copyIn _ _ _ (by decide)]
  simp only [List.length_replicate, fontData_length]
  split
  · rename_i h
    rw [List.getD_eq_getElem?_getD, List.getElem?_replicate]
    split <;> rfl
  · rename_i h
    simp only [Memory.lookup, Memory.unlisted]
    split
    · rw [List.getD_eq_default _ _ (by rw [fontData_length]; omega)]
    · rfl

end Sys2Proof.Machine
end

