-- ==== Sys2Proof/Laws/Ops.lean ====
section
/-! SUPPORT. One lemma for each shared operation that says everything it does, so that no proof unfolds it. -/

namespace Sys2Proof.Machine

/-! ## Registers -/

/-- Reading a register after writing one. -/
@[simp] theorem getV_setV (s : State) (x k : Reg) (b : Byte) :
    getV (setV s x b) k = if k = x then b else getV s k := by
  simp only [getV, setV]
  by_cases h : k = x
  · subst h
    simp
  · rw [if_neg h]
    exact Vector.getElem_set_ne (by omega) (by omega) (fun e => h (Fin.ext e.symm))

/-- Reading a register after writing the flag. -/
@[simp] theorem getV_setVF (s : State) (k : Reg) (b : Byte) :
    getV (setVF s b) k = if k = 15 then b else getV s k := getV_setV s 15 k b

/-- Reading a register depends on the register file alone. -/
theorem getV_congr {s t : State} (h : t.v = s.v) (k : Reg) : getV t k = getV s k := by
  simp [getV, h]

/-- Two register files that read alike are equal. -/
theorem v_ext {s t : State} (h : ∀ k, getV t k = getV s k) : t.v = s.v := by
  apply Vector.ext
  intro k hk
  exact h ⟨k, hk⟩

/-- All that a skip does. -/
theorem skipIf_eq (c : Bool) (s : State) : skipIf c s = { s with pc := if c then s.pc + 2 else s.pc } := by
  cases c <;> rfl

/-- All that vf_reset does. -/
theorem applyVfReset_eq (s : State) :
    applyVfReset s = { s with v := if s.config.vfReset then s.v.set Reg.f 0 else s.v } := by
  unfold applyVfReset
  split <;> rfl

/-- All that the save_load_increment step does. -/
theorem incrementI_eq (x : Reg) (s : State) :
    incrementI x s =
      { s with i := if s.config.saveLoadIncrement then s.i + BitVec.ofNat 16 (x.val + 1) else s.i } := by
  unfold incrementI
  split <;> rfl

/-! ## The stack -/

/-- A return on the empty stack does nothing. -/
theorem popToPc_empty {s : State} (h : s.stack = []) : popToPc s = s := by
  simp [popToPc, h]

/-- A return takes the top of the stack. -/
theorem popToPc_top {s : State} {rest : List Word} {a : Word} (h : s.stack = rest ++ [a]) :
    popToPc s = { s with stack := rest, pc := a } := by
  simp [popToPc, h, setPc]

/-- A return after a call comes back. -/
theorem popToPc_push (s : State) (a : Word) : popToPc (push s a) = setPc s a :=
  popToPc_top rfl

/-- All that a return can do. -/
theorem popToPc_cases (s : State) :
    (s.stack = [] ∧ popToPc s = s) ∨
      ∃ rest a, s.stack = rest ++ [a] ∧ popToPc s = { s with stack := rest, pc := a } := by
  rcases List.eq_nil_or_concat s.stack with h | ⟨rest, a, h⟩
  · exact .inl ⟨h, popToPc_empty h⟩
  · rw [List.concat_eq_append] at h
    exact .inr ⟨rest, a, h, popToPc_top h⟩

/-- When a push would overflow. -/
theorem stackFull_iff (s : State) : stackFull s = true ↔ s.config.stackLimit = some s.stack.length := by
  unfold stackFull
  split
  · rename_i n h
    rw [h]
    simp only [beq_iff_eq, Option.some.injEq]
    exact eq_comm
  · rename_i h
    simp [h]

/-! ## Block transfers -/

/-- A block store changes memory alone. -/
theorem storeRegs_eq (k : Nat) (s : State) : storeRegs k s = { s with mem := (storeRegs k s).mem } := by
  induction k with
  | zero => rfl
  | succ k ih =>
    rw [storeRegs, ih]
    rfl

/-- A block store keeps the canonical form of memory. -/
theorem storeRegs_wf {s : State} (h : s.mem.wf) (k : Nat) : (storeRegs k s).mem.wf := by
  induction k with
  | zero => exact h
  | succ k ih => exact memWrite_wf ih _ _

/-- A byte that a block store does not reach. -/
theorem memRead_storeRegs_miss {s : State} {k a : Nat} (h : ∀ j < k, a % 4096 ≠ effAddr s j % 4096) :
    memRead (storeRegs k s) a = memRead s a := by
  induction k with
  | zero => rfl
  | succ k ih =>
    rw [storeRegs, memRead_memWrite, if_neg (h k (Nat.lt_succ_self k))]
    exact ih fun j hj => h j (Nat.lt_succ_of_lt hj)

/-- A byte that a block store writes (at most sixteen, so no two fall on one address, R78). -/
theorem memRead_storeRegs_hit {s : State} {k j : Nat} (hk : k ≤ 16) (hj : j < k) :
    memRead (storeRegs k s) (effAddr s j) = getV s (Fin.ofNat 16 j) := by
  induction k with
  | zero => omega
  | succ k ih =>
    rw [storeRegs, memRead_memWrite]
    by_cases h : j = k
    · subst h
      rw [if_pos rfl]
    · rw [if_neg (by unfold effAddr; omega)]
      exact ih (by omega) (by omega)

/-- A block load changes the registers alone. -/
theorem loadRegs_eq (k : Nat) (s : State) : loadRegs k s = { s with v := (loadRegs k s).v } := by
  induction k with
  | zero => rfl
  | succ k ih =>
    rw [loadRegs, ih]
    rfl

/-- The registers after a block load of at most sixteen. -/
theorem getV_loadRegs {s : State} {k : Nat} (hk : k ≤ 16) (r : Reg) :
    getV (loadRegs k s) r = if r.val < k then memRead s (effAddr s r.val) else getV s r := by
  induction k with
  | zero => simp [loadRegs]
  | succ k ih =>
    rw [loadRegs, getV_setV, ih (by omega)]
    have hv : (Fin.ofNat 16 k).val = k := Nat.mod_eq_of_lt (by omega)
    by_cases h : r = Fin.ofNat 16 k
    · have : r.val = k := by rw [h, hv]
      rw [if_pos h, if_pos (by omega), this]
    · have : r.val ≠ k := fun e => h (Fin.ext (e.trans hv.symm))
      rw [if_neg h]
      by_cases h2 : r.val < k
      · rw [if_pos h2, if_pos (by omega)]
      · rw [if_neg h2, if_neg (by omega)]

/-! ## Keys -/

/-- The key that the scan of FX0A finds: the lowest that is Released. -/
theorem firstReleased_eq_some {s : State} {k : Reg} :
    firstReleased s = some k ↔ keyAt s k = .released ∧ ∀ j < k, keyAt s j ≠ .released := by
  have hl : ∀ j : Reg, ([0, 1, 2, 3, 4, 5, 6, 7, 8, 9, 10, 11, 12, 13, 14, 15] : List Reg)[j.val]? = some j := by
    decide
  unfold firstReleased
  rw [List.find?_eq_some_iff_getElem]
  simp only [decide_eq_true_eq, Bool.not_eq_true', decide_eq_false_iff_not]
  constructor
  · rintro ⟨hk, n, hn, he, hlt⟩
    have hnk : n = k.val := by
      have h1 := hl ⟨n, hn⟩
      rw [List.getElem?_eq_getElem hn] at h1
      have h2 : (⟨n, hn⟩ : Reg) = k := Option.some.inj (h1.symm.trans (congrArg some he))
      exact congrArg Fin.val h2
    refine ⟨hk, fun j hj => ?_⟩
    have h1 := hlt j.val (hnk ▸ hj)
    have h2 := hl j
    rw [List.getElem?_eq_getElem j.isLt] at h2
    rwa [Option.some.inj h2] at h1
  · rintro ⟨hk, hlt⟩
    have h2 := hl k
    rw [List.getElem?_eq_getElem k.isLt] at h2
    refine ⟨hk, k.val, k.isLt, Option.some.inj h2, fun j hj => ?_⟩
    have h3 := hl ⟨j, by omega⟩
    rw [List.getElem?_eq_getElem (by show j < 16; omega)] at h3
    rw [Option.some.inj h3]
    exact hlt ⟨j, by omega⟩ hj

/-- The scan of FX0A finds nothing exactly when no key is Released. -/
theorem firstReleased_eq_none {s : State} : firstReleased s = none ↔ ∀ k, keyAt s k ≠ .released := by
  have hm : ∀ k : Reg, k ∈ ([0, 1, 2, 3, 4, 5, 6, 7, 8, 9, 10, 11, 12, 13, 14, 15] : List Reg) := by decide
  unfold firstReleased
  rw [List.find?_eq_none]
  simp only [decide_eq_true_eq]
  exact ⟨fun h k => h k (hm k), fun h k _ => h k⟩

/-- The key of a byte below 16 (R203). -/
theorem keyIndex_small {c : Config} {b : Byte} (h : b.toNat < 16) : keyIndex c b = .ok ⟨b.toNat, h⟩ := by
  simp [keyIndex, h]

/-- Under the policy mask a key index never faults: the low nibble is used (R203). -/
theorem keyIndex_mask {c : Config} (h : c.keyIndexPolicy = .mask) (b : Byte) :
    keyIndex c b = .ok (Fin.ofNat 16 b.toNat) := by
  unfold keyIndex
  split
  · rename_i hb
    exact congrArg Except.ok (Fin.ext (Nat.mod_eq_of_lt hb).symm)
  · simp only [h]
    refine congrArg Except.ok (Fin.ext ?_)
    simp [Fin.ofNat]

/-- Under the policy fault a key index of 16 or more faults (R203). -/
theorem keyIndex_fault {c : Config} {b : Byte} (h : c.keyIndexPolicy = .fault) (hb : 16 ≤ b.toNat) :
    keyIndex c b = .error .keyIndexOutOfRange := by
  unfold keyIndex
  rw [dif_neg (by omega), h]

/-- When a key index faults, and with what (R203, R303). -/
theorem keyIndex_eq_error {c : Config} {b : Byte} {kind : FaultKind} :
    keyIndex c b = .error kind ↔ kind = .keyIndexOutOfRange ∧ c.keyIndexPolicy = .fault ∧ 16 ≤ b.toNat := by
  by_cases hb : b.toNat < 16
  · simp [keyIndex_small hb, hb]
  · cases hp : c.keyIndexPolicy with
    | fault =>
      rw [keyIndex_fault hp (by omega)]
      constructor
      · intro h
        cases h
        exact ⟨rfl, rfl, by omega⟩
      · rintro ⟨rfl, _⟩
        rfl
    | mask => simp [keyIndex_mask hp]

/-- All that the sampling of the keypad does to a key (R323). -/
@[simp] theorem keyAt_keySample (s : State) (held : Vector Bool 16) (k : Reg) :
    keyAt (keySample s held) k = (keyAt s k).sample held[k] := by
  simp [keyAt, keySample]

/-! ## Ends of a tick -/

/-- Waiting gives back the state whose PC was advanced (R137). -/
theorem wait_advance (s : State) : wait (advance s) = .next s := by
  simp only [wait, advance, setPc]
  rw [show s.pc + 2 - 2 = s.pc by bv_omega]

/-- All that a fault does (R300). -/
theorem raise_eq (kind : FaultKind) (op : Word) (s : State) :
    raise kind op s = .next { s with fault := some ⟨kind, op, s.pc⟩ } := rfl

/-- A memory store of DXYN's kind reads nothing else: fetch depends on memory and PC alone. -/
theorem fetchWord_congr {s t : State} (hm : t.mem = s.mem) (hp : t.pc = s.pc) : fetchWord t = fetchWord s := by
  simp [fetchWord, memRead, hm, hp]

end Sys2Proof.Machine
end

