-- ==== Sys2Proof/Laws/PerInstr.lean ====
section
/-! SUPPORT. Statements made for each instruction, as syntax. The family Listing: an instruction's line in R104's
syntax column is well formed, and the assembler of R110 gives the instruction's own bytes for it. -/

namespace Sys2Proof.Laws.Listing

/-- The instruction's line of assembly is well formed, and assembles to the instruction's bytes (R110). -/
def Statement (i : Instr) : Prop :=
  (disassemble i).wellFormed = true ∧ assemble (disassemble i) = some (bytesOfWord (encode i))

/-- A register index written out and read back. -/
theorem asmReg_val (x : Reg) : asmReg x.val = x := Fin.ext (Nat.mod_eq_of_lt x.isLt)

/-! Operands of an instruction fit their fields. -/

theorem fits_reg (x : Reg) : fitsReg x.val = true := decide_eq_true x.isLt

theorem fits_byte (n : Byte) : fitsByte n.toNat = true := decide_eq_true n.isLt

theorem fits_addr (n : Addr) : fitsAddr n.toNat = true := decide_eq_true n.isLt

theorem fits_nibble (n : Nibble) : fitsNibble n.toNat = true := decide_eq_true n.isLt

/-! ## One lemma for each shape of operands -/

/-- An instruction is listed rightly if its line is well formed and names it. -/
theorem of_line {i : Instr} {m : AsmMnemonic} {ops : List AsmOperand} (hl : disassemble i = .instr m ops)
    (hw : (AsmLine.instr m ops).wellFormed = true) (hi : asmInstr m ops = some i) : Statement i := by
  refine ⟨hl ▸ hw, ?_⟩
  rw [hl, assemble, if_pos hw]
  exact congrArg (Option.map fun j => bytesOfWord (encode j)) hi

/-- One address. -/
theorem of_addr (f : Addr → Instr) (n : Addr) {m : AsmMnemonic} {ops : List AsmOperand}
    (hl : disassemble (f n) = .instr m ops) (hw : (AsmLine.instr m ops).wellFormed = fitsAddr n.toNat)
    (hi : asmInstr m ops = some (f (BitVec.ofNat 12 n.toNat))) : Statement (f n) :=
  of_line hl (hw.trans (fits_addr n)) (by rw [hi, BitVec.ofNat_toNat, BitVec.setWidth_eq])

/-- One register. -/
theorem of_reg (f : Reg → Instr) (x : Reg) {m : AsmMnemonic} {ops : List AsmOperand}
    (hl : disassemble (f x) = .instr m ops) (hw : (AsmLine.instr m ops).wellFormed = fitsReg x.val)
    (hi : asmInstr m ops = some (f (asmReg x.val))) : Statement (f x) :=
  of_line hl (hw.trans (fits_reg x)) (by rw [hi, asmReg_val])

/-- A register and a byte. -/
theorem of_byte (f : Reg → Byte → Instr) (x : Reg) (n : Byte) {m : AsmMnemonic} {ops : List AsmOperand}
    (hl : disassemble (f x n) = .instr m ops)
    (hw : (AsmLine.instr m ops).wellFormed = (fitsReg x.val && fitsByte n.toNat))
    (hi : asmInstr m ops = some (f (asmReg x.val) (BitVec.ofNat 8 n.toNat))) : Statement (f x n) :=
  of_line hl (by rw [hw, fits_reg, fits_byte]; rfl) (by rw [hi, asmReg_val, BitVec.ofNat_toNat, BitVec.setWidth_eq])

/-- Two registers. -/
theorem of_regs (f : Reg → Reg → Instr) (x y : Reg) {m : AsmMnemonic} {ops : List AsmOperand}
    (hl : disassemble (f x y) = .instr m ops)
    (hw : (AsmLine.instr m ops).wellFormed = (fitsReg x.val && fitsReg y.val))
    (hi : asmInstr m ops = some (f (asmReg x.val) (asmReg y.val))) : Statement (f x y) :=
  of_line hl (by rw [hw, fits_reg, fits_reg]; rfl) (by rw [hi, asmReg_val, asmReg_val])

/-! ## One lemma for each constructor -/

theorem cls : Statement (.cls) := of_line rfl rfl rfl

theorem ret : Statement (.ret) := of_line rfl rfl rfl

theorem jp (nnn : Addr) : Statement (.jp nnn) := of_addr .jp nnn rfl rfl rfl

theorem call (nnn : Addr) : Statement (.call nnn) := of_addr .call nnn rfl rfl rfl

theorem seImm (x : Reg) (nn : Byte) : Statement (.seImm x nn) := of_byte .seImm x nn rfl rfl rfl

theorem sneImm (x : Reg) (nn : Byte) : Statement (.sneImm x nn) := of_byte .sneImm x nn rfl rfl rfl

theorem seReg (x y : Reg) : Statement (.seReg x y) := of_regs .seReg x y rfl rfl rfl

theorem ldImm (x : Reg) (nn : Byte) : Statement (.ldImm x nn) := of_byte .ldImm x nn rfl rfl rfl

theorem addImm (x : Reg) (nn : Byte) : Statement (.addImm x nn) := of_byte .addImm x nn rfl rfl rfl

theorem ldReg (x y : Reg) : Statement (.ldReg x y) := of_regs .ldReg x y rfl rfl rfl

theorem or (x y : Reg) : Statement (.or x y) := of_regs .or x y rfl rfl rfl

theorem and (x y : Reg) : Statement (.and x y) := of_regs .and x y rfl rfl rfl

theorem xor (x y : Reg) : Statement (.xor x y) := of_regs .xor x y rfl rfl rfl

theorem addReg (x y : Reg) : Statement (.addReg x y) := of_regs .addReg x y rfl rfl rfl

theorem sub (x y : Reg) : Statement (.sub x y) := of_regs .sub x y rfl rfl rfl

theorem shr (x y : Reg) : Statement (.shr x y) := of_regs .shr x y rfl rfl rfl

theorem subn (x y : Reg) : Statement (.subn x y) := of_regs .subn x y rfl rfl rfl

theorem shl (x y : Reg) : Statement (.shl x y) := of_regs .shl x y rfl rfl rfl

theorem sneReg (x y : Reg) : Statement (.sneReg x y) := of_regs .sneReg x y rfl rfl rfl

theorem ldI (nnn : Addr) : Statement (.ldI nnn) := of_addr .ldI nnn rfl rfl rfl

theorem jpV0 (nnn : Addr) : Statement (.jpV0 nnn) := of_addr .jpV0 nnn rfl rfl rfl

theorem rnd (x : Reg) (nn : Byte) : Statement (.rnd x nn) := of_byte .rnd x nn rfl rfl rfl

theorem drw (x y : Reg) (n : Nibble) : Statement (.drw x y n) :=
  of_line rfl
    (by
      change (fitsReg x.val && fitsReg y.val && fitsNibble n.toNat) = true
      rw [fits_reg, fits_reg, fits_nibble]
      rfl)
    (by
      change some (Instr.drw (asmReg x.val) (asmReg y.val) (BitVec.ofNat 4 n.toNat)) = some (.drw x y n)
      rw [asmReg_val, asmReg_val, BitVec.ofNat_toNat, BitVec.setWidth_eq])

theorem skp (x : Reg) : Statement (.skp x) := of_reg .skp x rfl rfl rfl

theorem sknp (x : Reg) : Statement (.sknp x) := of_reg .sknp x rfl rfl rfl

theorem ldVxDt (x : Reg) : Statement (.ldVxDt x) := of_reg .ldVxDt x rfl rfl rfl

theorem ldVxK (x : Reg) : Statement (.ldVxK x) := of_reg .ldVxK x rfl rfl rfl

theorem ldDtVx (x : Reg) : Statement (.ldDtVx x) := of_reg .ldDtVx x rfl rfl rfl

theorem ldStVx (x : Reg) : Statement (.ldStVx x) := of_reg .ldStVx x rfl rfl rfl

theorem addIVx (x : Reg) : Statement (.addIVx x) := of_reg .addIVx x rfl rfl rfl

theorem ldFVx (x : Reg) : Statement (.ldFVx x) := of_reg .ldFVx x rfl rfl rfl

theorem ldBVx (x : Reg) : Statement (.ldBVx x) := of_reg .ldBVx x rfl rfl rfl

theorem ldMemVx (x : Reg) : Statement (.ldMemVx x) := of_reg .ldMemVx x rfl rfl rfl

theorem ldVxMem (x : Reg) : Statement (.ldVxMem x) := of_reg .ldVxMem x rfl rfl rfl

end Sys2Proof.Laws.Listing
end

