-- ==== Sys2Proof/Laws/Step.lean ====
section
/-! SUPPORT. What a tick and a step can do, said once (R130 to R141, R340). -/

namespace Sys2Proof.Machine

/-- Where a tick at a running core goes. -/
theorem tick_running {s : State} (h : s.fault = none) :
    tick s = match decode (fetchWord s) with
      | .ok i => exec i s
      | .error _ => raise .unknownOpcode (fetchWord s) s := by
  unfold tick
  split
  · rename_i r hr
    rw [hr] at h
    cases h
  · rfl

/-- All that a tick that answers a next state can have done. -/
theorem tick_cases {s t : State} (h : tick s = .next t) :
    s.fault = none ∧
      ((∃ i, decode (fetchWord s) = .ok i ∧ exec i s = .next t) ∨
        (∃ e, decode (fetchWord s) = .error e) ∧
          t = { s with fault := some ⟨.unknownOpcode, fetchWord s, s.pc⟩ }) := by
  unfold tick at h
  split at h
  · cases h
  · rename_i hf
    refine ⟨hf, ?_⟩
    split at h
    · exact .inl ⟨_, ‹_›, h⟩
    · rename_i e he
      rw [raise_eq] at h
      exact .inr ⟨⟨e, he⟩, (Host.Outcome.next.inj h).symm⟩

/-- All that a step that answers a next state can have done. -/
theorem step_cases {s t : State} (h : step s = .next t) :
    (s.schedule = [] ∧ tick s = .next t) ∨
      (∃ rest, s.schedule = .tick :: rest ∧ tick { s with schedule := rest } = .next t) ∨
      ∃ a rest, s.schedule = a :: rest ∧ a ≠ .tick ∧ t = applyHost a { s with schedule := rest } := by
  unfold step at h
  split at h
  · exact .inl ⟨‹_›, h⟩
  · exact .inr (.inl ⟨_, ‹_›, h⟩)
  · rename_i a rest ha hs
    exact .inr (.inr ⟨a, rest, hs, ha, (Host.Outcome.next.inj h).symm⟩)

/-- A core that waits in FX0A reports Waiting, and its tick leaves the state as it was (R137, R262). -/
theorem tick_waitsForKey {s : State} (h : s.waitsForKey) : tickOutcome s = some .waiting ∧ tick s = .next s := by
  obtain ⟨hf, ⟨x, hd⟩, hk⟩ := h
  rw [tick_running hf, hd]
  simp [tickOutcome, hf, hd, raises, waits, hk, exec, execLdVxK, wait_advance]

/-- After the sample that R344 asks for, some key is Released, so that FX0A completes (R262, R324). -/
theorem step_samplesRelease {s t : State} (h : s.samplesRelease) (hst : step s = .next t) :
    (firstReleased t).isSome = true := by
  obtain ⟨held, rest, hs, k, hk, hn⟩ := h
  have ht : t = keySample { s with schedule := rest } held := by
    rw [step, hs] at hst
    exact (Host.Outcome.next.inj hst).symm
  have hr : keyAt t k = .released := by
    have e : keyAt t k = (keyAt s k).sample held[k] := by
      rw [ht]
      simp [keySample, keyAt]
    rw [e, hn]
    cases hc : keyAt s k <;> simp_all [KeyState.held, KeyState.sample]
  rw [Option.isSome_iff_ne_none]
  exact fun hz => firstReleased_eq_none.1 hz k hr

end Sys2Proof.Machine
end

