-- ==== Sys2Proof/Tests/Slice0.lean ====
section
/-! SUPPORT. Small tests: the well-formedness smoke test, one decoding for each constructor, single steps with results
from spec/95_test_vectors.md (its row is named in each docstring), and a witness for each statement with hypotheses. -/

namespace Sys2Proof.Tests

open Sys2Proof.Machine Sys2Proof.Claims

/-! ## Helpers -/

/-- The reference start state of 95_test_vectors.md with some registers set. -/
def regs (l : List (Reg × Byte)) : State := l.foldl (fun s p => setV s p.1 p.2) State.reset

/-- The same with another configuration. -/
def under (c : Config) (s : State) : State := { s with config := c }

/-- Bytes stored from an address upward. -/
def bytes (a : Nat) (l : List Byte) (s : State) : State := { s with mem := s.mem.copyIn a l }

/-- The outcome is a next state of which `f` holds. -/
def gives (r : Result) (f : State → Bool) : Bool :=
  match r with
  | .next t => f t
  | .fault _ => false
  | .refused _ => false

/-- One step with a word at PC gives a next state of which `f` holds. -/
def runs (w : Nat) (s : State) (f : State → Bool) : Bool := gives (step (s.withFetchWord 16 w)) f

/-- The pixels of a row that are on. -/
def rowOn (t : State) (y : Nat) : List Nat := (List.range 64).filter (fun x => t.display.pixel x y)

/-- One key in a state. -/
def key (k : Reg) (c : KeyState) (s : State) : State := { s with keys := s.keys.set k c }

/-- One pixel on. -/
def pixelOn (x y : Nat) (s : State) : State := { s with display := s.display.setPixel x y true }

/-! ## Well-formedness smoke: an ill-formed term for each check -/

/-- R110: a register index of 16. -/
theorem test_wf_reg : fitsReg 15 = true ∧ fitsReg 16 = false ∧
    AsmLine.wellFormed (.instr .ld [.v 16, .num 0]) = false := by decide

/-- R110: a byte of 256. -/
theorem test_wf_byte : fitsByte 255 = true ∧ fitsByte 256 = false ∧
    AsmLine.wellFormed (.instr .ld [.v 0, .num 256]) = false := by decide

/-- R110: an address of 4096. -/
theorem test_wf_addr : fitsAddr 4095 = true ∧ fitsAddr 4096 = false ∧
    AsmLine.wellFormed (.instr .jp [.num 4096]) = false := by decide

/-- R110: a sprite height of 16. -/
theorem test_wf_nibble : fitsNibble 15 = true ∧ fitsNibble 16 = false ∧
    AsmLine.wellFormed (.instr .drw [.v 0, .v 0, .num 16]) = false := by decide

/-- R110: JP with a register other than V0, and operand kinds of no row. -/
theorem test_wf_kinds : AsmLine.wellFormed (.instr .jp [.v 0, .num 5]) = true ∧
    AsmLine.wellFormed (.instr .jp [.v 1, .num 5]) = false ∧ AsmLine.wellFormed (.instr .cls [.i]) = false ∧
    assemble (.instr .cls [.i]) = none := by decide

/-- R111: DB of 256. -/
theorem test_wf_db : assemble (.db 255) = some [255] ∧ assemble (.db 256) = none := by decide

/-- R233, R9: a display of no rows, a frame of no ticks. -/
theorem test_wf_config : Config.runner.wf = true ∧
    Config.wf { Config.runner with displayH := 0 } = false ∧
    Config.wf { Config.runner with cyclesPerFrame := 0 } = false := by decide

/-- R350: a ROM of 3585 bytes. -/
theorem test_wf_rom : romFits (List.replicate 3584 0) = true ∧ romFits (List.replicate 3585 0) = false := by
  simp only [romFits, List.length_replicate]; decide

/-- 95 P1: lines of a listing and their bytes. -/
theorem test_assemble : assemble (.instr .add [.v 1, .num 3]) = some [0x71, 0x03] ∧
    assemble (.instr .ld [.v 2, .mem]) = some [0xF2, 0x65] := by decide

/-! ## Decoding: a word of each constructor, bits 15 to 0 written out from R102 and R104 -/

/-- The 0, 1, 2, A and B classes. -/
theorem test_decode_address :
    decode (0b0000#4 ++ 0b0000#4 ++ 0b1110#4 ++ 0b0000#4) = .ok .cls ∧
    decode (0b0000#4 ++ 0b0000#4 ++ 0b1110#4 ++ 0b1110#4) = .ok .ret ∧
    decode (0b0001#4 ++ 0b0010#4 ++ 0b0011#4 ++ 0b0100#4) = .ok (.jp 0x234) ∧
    decode (0b0010#4 ++ 0b1111#4 ++ 0b0000#4 ++ 0b0001#4) = .ok (.call 0xF01) ∧
    decode (0b1010#4 ++ 0b0010#4 ++ 0b1111#4 ++ 0b0000#4) = .ok (.ldI 0x2F0) ∧
    decode (0b1011#4 ++ 0b0011#4 ++ 0b0000#4 ++ 0b0101#4) = .ok (.jpV0 0x305) := by decide

/-- The 3, 4, 6, 7 and C classes. -/
theorem test_decode_byte :
    decode (0b0011#4 ++ 0b1111#4 ++ 0b0000#4 ++ 0b0001#4) = .ok (.seImm 15 0x01) ∧
    decode (0b0100#4 ++ 0b0011#4 ++ 0b0001#4 ++ 0b0000#4) = .ok (.sneImm 3 0x10) ∧
    decode (0b0110#4 ++ 0b1010#4 ++ 0b0100#4 ++ 0b0010#4) = .ok (.ldImm 10 0x42) ∧
    decode (0b0111#4 ++ 0b0001#4 ++ 0b0000#4 ++ 0b0101#4) = .ok (.addImm 1 0x05) ∧
    decode (0b1100#4 ++ 0b0011#4 ++ 0b0000#4 ++ 0b1111#4) = .ok (.rnd 3 0x0F) := by decide

/-- The 8 class. -/
theorem test_decode_alu :
    decode (0b1000#4 ++ 0b0001#4 ++ 0b0010#4 ++ 0b0000#4) = .ok (.ldReg 1 2) ∧
    decode (0b1000#4 ++ 0b0001#4 ++ 0b0010#4 ++ 0b0001#4) = .ok (.or 1 2) ∧
    decode (0b1000#4 ++ 0b0001#4 ++ 0b0010#4 ++ 0b0010#4) = .ok (.and 1 2) ∧
    decode (0b1000#4 ++ 0b0001#4 ++ 0b0010#4 ++ 0b0011#4) = .ok (.xor 1 2) ∧
    decode (0b1000#4 ++ 0b1110#4 ++ 0b0111#4 ++ 0b0100#4) = .ok (.addReg 14 7) ∧
    decode (0b1000#4 ++ 0b0001#4 ++ 0b0010#4 ++ 0b0101#4) = .ok (.sub 1 2) ∧
    decode (0b1000#4 ++ 0b1010#4 ++ 0b1011#4 ++ 0b0110#4) = .ok (.shr 10 11) ∧
    decode (0b1000#4 ++ 0b0001#4 ++ 0b0010#4 ++ 0b0111#4) = .ok (.subn 1 2) ∧
    decode (0b1000#4 ++ 0b0011#4 ++ 0b0100#4 ++ 0b1110#4) = .ok (.shl 3 4) := by decide

/-- The 5, 9, D and E classes. -/
theorem test_decode_compare_draw_key :
    decode (0b0101#4 ++ 0b0001#4 ++ 0b0010#4 ++ 0b0000#4) = .ok (.seReg 1 2) ∧
    decode (0b1001#4 ++ 0b0001#4 ++ 0b0010#4 ++ 0b0000#4) = .ok (.sneReg 1 2) ∧
    decode (0b1101#4 ++ 0b0001#4 ++ 0b0010#4 ++ 0b0101#4) = .ok (.drw 1 2 5) ∧
    decode (0b1110#4 ++ 0b1011#4 ++ 0b1001#4 ++ 0b1110#4) = .ok (.skp 11) ∧
    decode (0b1110#4 ++ 0b1011#4 ++ 0b1010#4 ++ 0b0001#4) = .ok (.sknp 11) := by decide

/-- The F class. -/
theorem test_decode_f :
    decode (0b1111#4 ++ 0b0101#4 ++ 0b0000#4 ++ 0b0111#4) = .ok (.ldVxDt 5) ∧
    decode (0b1111#4 ++ 0b0010#4 ++ 0b0000#4 ++ 0b1010#4) = .ok (.ldVxK 2) ∧
    decode (0b1111#4 ++ 0b0001#4 ++ 0b0001#4 ++ 0b0101#4) = .ok (.ldDtVx 1) ∧
    decode (0b1111#4 ++ 0b0001#4 ++ 0b0001#4 ++ 0b1000#4) = .ok (.ldStVx 1) ∧
    decode (0b1111#4 ++ 0b0010#4 ++ 0b0001#4 ++ 0b1110#4) = .ok (.addIVx 2) ∧
    decode (0b1111#4 ++ 0b0100#4 ++ 0b0010#4 ++ 0b1001#4) = .ok (.ldFVx 4) ∧
    decode (0b1111#4 ++ 0b0000#4 ++ 0b0011#4 ++ 0b0011#4) = .ok (.ldBVx 0) ∧
    decode (0b1111#4 ++ 0b0011#4 ++ 0b0101#4 ++ 0b0101#4) = .ok (.ldMemVx 3) ∧
    decode (0b1111#4 ++ 0b0011#4 ++ 0b0110#4 ++ 0b0101#4) = .ok (.ldVxMem 3) := by decide

/-- E4 to E15: illegal words. -/
theorem test_decode_illegal : [0x0000, 0x0123, 0x00E1, 0x5121, 0x800F, 0x8128, 0x912A, 0xE000, 0xE09F, 0xF000, 0xF0FF,
    0xFFFF].map (decodeTableWord 16) = List.replicate 12 none := by decide

/-- The table's numbering: one word, laid out high byte first. -/
theorem test_decode_table : decodeTableWord 16 0x6A42 = some (.ldImm 10 0x42) ∧
    decodeTableWord 16 0xD125 = some (.drw 1 2 5) ∧ decodeTableWord 16 0xFFFF = none := by decide

/-! ## Single steps: register load and arithmetic -/

/-- A1. -/
theorem test_ldImm : runs 0x6A42 State.reset (fun t => getV t 10 = 0x42 ∧ t.pc = 0x202) = true := by decide

/-- A3: the sum wraps and no carry is written. -/
theorem test_addImm : runs 0x7105 (regs [(1, 0xFE), (15, 0x55)])
    (fun t => getV t 1 = 0x03 ∧ getV t 15 = 0x55) = true := by decide

/-- A5. -/
theorem test_ldReg : runs 0x8120 (regs [(2, 0x07)]) (fun t => getV t 1 = 0x07 ∧ getV t 2 = 0x07) = true := by decide

/-- A6: VF is left alone. -/
theorem test_or : runs 0x8121 (regs [(1, 0x0F), (2, 0xF0), (15, 0x77)])
    (fun t => getV t 1 = 0xFF ∧ getV t 15 = 0x77) = true := by decide

/-- A11: with X = 15 the reset of VF comes after the result. -/
theorem test_or_vfReset : runs 0x8F21 (under { Config.runner with vfReset := true } (regs [(15, 0x10), (2, 0x01)]))
    (fun t => getV t 15 = 0) = true := by decide

/-- A8, and VF under vf_reset. -/
theorem test_and : runs 0x8122 (under { Config.runner with vfReset := true } (regs [(1, 0x3C), (2, 0x0F), (15, 0x77)]))
    (fun t => getV t 1 = 0x0C ∧ getV t 15 = 0) = true := by decide

/-- A9. -/
theorem test_xor : runs 0x8123 (regs [(1, 0xFF), (2, 0x0F), (15, 0x77)])
    (fun t => getV t 1 = 0xF0 ∧ getV t 15 = 0x77) = true := by decide

/-- L1-1, A14: carry out. -/
theorem test_addReg : runs 0x8124 (regs [(1, 0xFF), (2, 0xFF)])
    (fun t => getV t 1 = 0xFE ∧ getV t 15 = 1) = true := by decide

/-- A15: with X = 15 the flag is written last. -/
theorem test_addReg_flagLast : runs 0x8F14 (regs [(15, 0xFF), (1, 0x01)]) (fun t => getV t 15 = 1) = true := by decide

/-- L1-2: equal operands set the flag. -/
theorem test_sub : runs 0x8015 (regs [(0, 0x01), (1, 0x01)]) (fun t => getV t 0 = 0 ∧ getV t 15 = 1) = true := by decide

/-- L1-3: a borrow. -/
theorem test_sub_borrow : runs 0x8015 (regs [(1, 0x01)]) (fun t => getV t 0 = 0xFF ∧ getV t 15 = 0) = true := by decide

/-- L1-4: VX is the operand. -/
theorem test_shr : runs 0x8016 (regs [(0, 0x81), (1, 0xFE)]) (fun t => getV t 0 = 0x40 ∧ getV t 15 = 1) = true := by
  decide

/-- L1-5: under shifting VY is the operand. -/
theorem test_shr_shifting : runs 0x8016 (under { Config.runner with shifting := true } (regs [(0, 0x55), (1, 0x02)]))
    (fun t => getV t 0 = 0x01 ∧ getV t 15 = 0 ∧ getV t 1 = 0x02) = true := by decide

/-- A20. -/
theorem test_subn : runs 0x8127 (regs [(1, 0x03), (2, 0x05)]) (fun t => getV t 1 = 0x02 ∧ getV t 15 = 1) = true := by
  decide

/-- A21: a borrow. -/
theorem test_subn_borrow : runs 0x8127 (regs [(1, 0x05), (2, 0x03)])
    (fun t => getV t 1 = 0xFE ∧ getV t 15 = 0) = true := by decide

/-- A30: with X = 15 the flag wins. -/
theorem test_shl : runs 0x8F0E (regs [(15, 0x80)]) (fun t => getV t 15 = 1) = true := by decide

/-- A29: under shifting VY is the operand. -/
theorem test_shl_shifting : runs 0x812E (under { Config.runner with shifting := true } (regs [(2, 0x81)]))
    (fun t => getV t 1 = 0x02 ∧ getV t 15 = 1 ∧ getV t 2 = 0x81) = true := by decide

/-! ## Single steps: control flow and random -/

/-- B5. -/
theorem test_ret : runs 0x00EE { State.reset with stack := [0x206] } (fun t => t.pc = 0x206 ∧ t.stack = []) = true := by
  decide

/-- B6: the empty stack. -/
theorem test_ret_empty : runs 0x00EE State.reset (fun t => t.pc = 0x202 ∧ t.stack = []) = true := by decide

/-- B1. -/
theorem test_jp : runs 0x1234 State.reset (fun t => t.pc = 0x234) = true := by decide

/-- B4: a call at 0xFFE pushes 0x1000. -/
theorem test_call : runs 0x2300 { State.reset with pc := 0xFFE } (fun t => t.pc = 0x300 ∧ t.stack = [0x1000]) = true := by
  decide

/-- B7: the capped stack is full. -/
theorem test_call_full : runs 0x2300
    { State.reset with stack := [0x202, 0x302], config := { Config.runner with stackLimit := some 2 } }
    (fun t => t.pc = 0x200 ∧ t.stack = [0x202, 0x302] ∧ t.fault = some ⟨.stackOverflow, 0x2300, 0x200⟩) = true := by
  decide

/-- B9, B10. -/
theorem test_seImm : runs 0x3310 (regs [(3, 0x10)]) (fun t => t.pc = 0x204) = true ∧
    runs 0x3311 (regs [(3, 0x10)]) (fun t => t.pc = 0x202) = true := by decide

/-- B12, B13. -/
theorem test_sneImm : runs 0x4310 (regs [(3, 0x10)]) (fun t => t.pc = 0x202) = true ∧
    runs 0x4311 (regs [(3, 0x10)]) (fun t => t.pc = 0x204) = true := by decide

/-- B14, B15. -/
theorem test_seReg : runs 0x5120 (regs [(1, 7), (2, 7)]) (fun t => t.pc = 0x204) = true ∧
    runs 0x5120 (regs [(1, 7), (2, 8)]) (fun t => t.pc = 0x202) = true := by decide

/-- B17, B18. -/
theorem test_sneReg : runs 0x9120 (regs [(1, 7), (2, 8)]) (fun t => t.pc = 0x204) = true ∧
    runs 0x9120 (regs [(1, 7), (2, 7)]) (fun t => t.pc = 0x202) = true := by decide

/-- B25 to B28: Released counts as not held. -/
theorem test_skp : runs 0xE09E (key 5 .down (regs [(0, 5)])) (fun t => t.pc = 0x204) = true ∧
    runs 0xE09E (key 5 .released (regs [(0, 5)])) (fun t => t.pc = 0x202) = true := by decide

/-- B29: an index of 0x12 under the policy fault. -/
theorem test_skp_fault : runs 0xE09E (key 2 .down (regs [(0, 0x12)]))
    (fun t => t.pc = 0x200 ∧ t.fault = some ⟨.keyIndexOutOfRange, 0xE09E, 0x200⟩) = true := by decide

/-- B25 to B28. -/
theorem test_sknp : runs 0xE0A1 (key 5 .pressed (regs [(0, 5)])) (fun t => t.pc = 0x202) = true ∧
    runs 0xE0A1 (key 5 .released (regs [(0, 5)])) (fun t => t.pc = 0x204) = true := by decide

/-- B31: an index of 0x12 under the policy mask is key 2. -/
theorem test_sknp_mask : runs 0xE0A1 (key 2 .down (under { Config.runner with keyIndexPolicy := .mask } (regs [(0, 0x12)])))
    (fun t => t.pc = 0x202) = true := by decide

/-- B21: the largest target. -/
theorem test_jpV0 : runs 0xBFFF (regs [(0, 0xFF)]) (fun t => t.pc = 0x10FE) = true := by decide

/-- B22, B24: given the draw. -/
theorem test_rnd : gives (drawRandom 0xA7 3 0x0F State.reset) (fun t => getV t 3 = 0x07 ∧ t.pc = 0x202) = true ∧
    gives (drawRandom 0x5A 3 0xFF State.reset) (fun t => getV t 3 = 0x5A) = true := by decide

/-- What the spec fixes of a run CXNN whatever the draw: PC, and one draw taken. -/
theorem test_rnd_runs : runs 0xC30F State.reset (fun t => t.pc = 0x202 ∧ t.draws = 1 ∧ getV t 4 = 0) = true := by decide

/-! ## Single steps: display -/

/-- C15. -/
theorem test_cls : runs 0x00E0 (pixelOn 3 3 State.reset)
    (fun t => t.display.pixel 3 3 = false ∧ t.drawFlag = false ∧ t.pc = 0x202) = true := by decide

/-- C16. -/
theorem test_cls_flag : runs 0x00E0 (under { Config.runner with clsSetsDrawFlag := true } (pixelOn 3 3 State.reset))
    (fun t => t.display.pixel 3 3 = false ∧ t.drawFlag = true) = true := by decide

/-- C2, L1-8: the sprite wraps at the right edge. -/
theorem test_drw_wrap : runs 0xD011 (bytes 0x300 [0xFF] (setI (regs [(0, 0x3C)]) 0x300))
    (fun t => rowOn t 0 = [0, 1, 2, 3, 60, 61, 62, 63] ∧ getV t 15 = 0 ∧ t.drawFlag = true ∧ t.pc = 0x202) = true := by
  decide

/-- C8: a collision turns the pixel off and sets VF. -/
theorem test_drw_collision : runs 0xD011 (pixelOn 1 0 (pixelOn 5 5 (bytes 0x300 [0xC0] (setI State.reset 0x300))))
    (fun t => rowOn t 0 = [0] ∧ rowOn t 5 = [5] ∧ getV t 15 = 1) = true := by decide

/-! ## Single steps: I, timers, keypad, memory block -/

/-- D1. -/
theorem test_ldI : runs 0xA123 State.reset (fun t => t.i = 0x123) = true := by decide

/-- D3: I is not reduced to 12 bits, and VF is not written. -/
theorem test_addIVx : runs 0xF11E (setI (regs [(1, 0xFF), (15, 0x55)]) 0xFFF)
    (fun t => t.i = 0x10FE ∧ getV t 15 = 0x55) = true := by decide

/-- D8: the byte is not masked. -/
theorem test_ldFVx : runs 0xF029 (regs [(0, 0xFF)]) (fun t => t.i = 0x54B) = true := by decide

/-- D26. -/
theorem test_ldVxDt : runs 0xF007 (setDt State.reset 0x3C) (fun t => getV t 0 = 0x3C ∧ t.dt = 0x3C) = true := by decide

/-- D27. -/
theorem test_ldDtVx : runs 0xF015 (regs [(0, 0x3C)]) (fun t => t.dt = 0x3C ∧ t.st = 0) = true := by decide

/-- D28. -/
theorem test_ldStVx : runs 0xF018 (regs [(0, 0x05)]) (fun t => t.st = 0x05 ∧ t.dt = 0) = true := by decide

/-- D29: the lowest released key wins. -/
theorem test_ldVxK : runs 0xF20A (key 1 .down (key 3 .released (key 9 .released State.reset)))
    (fun t => getV t 2 = 0x03 ∧ keyAt t 3 = .released ∧ t.pc = 0x202) = true := by decide

/-- D30: held keys do not end the wait. -/
theorem test_ldVxK_waits : runs 0xF20A (key 1 .down (key 2 .pressed State.reset))
    (fun t => getV t 2 = 0 ∧ t.pc = 0x200 ∧ t.fault = none) = true := by decide

/-- D15: the address wraps after 0xFFF. -/
theorem test_ldBVx : runs 0xF033 (setI (regs [(0, 123)]) 0xFFF)
    (fun t => memRead t 0xFFF = 1 ∧ memRead t 0 = 2 ∧ memRead t 1 = 3 ∧ t.i = 0xFFF) = true := by decide

/-- D16. -/
theorem test_ldMemVx : runs 0xF355 (setI (regs [(0, 0x11), (1, 0x22), (2, 0x33), (3, 0x44), (4, 0x55)]) 0x300)
    (fun t => memRead t 0x300 = 0x11 ∧ memRead t 0x303 = 0x44 ∧ memRead t 0x304 = 0 ∧ t.i = 0x300) = true := by decide

/-- D20: X = 15 stores VF, and I moves by 16. -/
theorem test_ldMemVx_increment :
    runs 0xFF55 (under { Config.runner with saveLoadIncrement := true } (setI (regs [(15, 0xFF)]) 0x300))
      (fun t => memRead t 0x30F = 0xFF ∧ t.i = 0x310) = true := by decide

/-- D24: the load wraps, and I is not reduced to 12 bits. -/
theorem test_ldVxMem_increment :
    runs 0xF265 (under { Config.runner with saveLoadIncrement := true } (bytes 0xFFE [1, 2, 3] (setI State.reset 0xFFE)))
      (fun t => getV t 0 = 1 ∧ getV t 1 = 2 ∧ getV t 2 = 3 ∧ t.i = 0x1001) = true := by decide

/-- D21: no register above VX is loaded. -/
theorem test_ldVxMem : runs 0xF265 (bytes 0x300 [0xA1, 0xB2, 0xC3, 0xD4] (setI State.reset 0x300))
    (fun t => getV t 0 = 0xA1 ∧ getV t 2 = 0xC3 ∧ getV t 3 = 0 ∧ t.i = 0x300) = true := by decide

/-! ## Fetch, faults, and the host's transactions -/

/-- E1: the fetch wraps between its two bytes. -/
theorem test_fetch_wraps : gives (step (bytes 0xFFF [0x60, 0x12] { State.reset with pc := 0xFFF }))
    (fun t => getV t 0 = 0x12 ∧ t.pc = 0x1001) = true := by decide

/-- L1-9. -/
theorem test_unknown : runs 0xFFFF State.reset
    (fun t => t.fault = some ⟨.unknownOpcode, 0xFFFF, 0x200⟩ ∧ t.pc = 0x200) = true := by decide

/-- From reset, with no ROM, the first tick finds the word 0x0000 (log entry 12); E4. -/
theorem test_reset_empty : gives (step State.reset) (fun t => t.fault = some ⟨.unknownOpcode, 0x0000, 0x200⟩) = true := by
  decide

/-- F1 and F3, and on a halted core (R320). -/
theorem test_advanceTimers :
    gives (step { State.reset with dt := 2, st := 1, schedule := [.advanceTimers], fault := some ⟨.unknownOpcode, 0, 0⟩ })
      (fun t => t.dt = 1 ∧ t.st = 0 ∧ t.schedule = []) = true ∧
    gives (step { State.reset with schedule := [.advanceTimers] }) (fun t => t.dt = 0 ∧ t.st = 0) = true := by decide

/-- G1 to G4, G6: one row for each state of a key. -/
theorem test_keySample : gives (step { key 1 .pressed (key 2 .down (key 3 .released State.reset)) with
      schedule := [.keySample (Vector.ofFn fun k => decide (k < 2))] })
    (fun t => keyAt t 0 = .pressed ∧ keyAt t 1 = .down ∧ keyAt t 2 = .released ∧ keyAt t 3 = .none ∧
      keyAt t 4 = .none) = true := by decide

/-- R353, R79: glyph A of the font, and the bytes about the font. -/
theorem test_font : [0x04F, 0x050, 0x082, 0x083, 0x084, 0x085, 0x086, 0x09F, 0x0A0].map (memRead State.reset) =
    [0, 0xF0, 0xF0, 0x90, 0xF0, 0x90, 0x90, 0x80, 0] := by decide

/-! ## Witnesses: concrete states that meet the hypotheses of each statement that has some -/

/-- A stored program at PC. -/
def withWord (w : Nat) (s : State) : State := s.withFetchWord 16 w

/-- EncodeOfDecode; StepRunsDecoded, first clause. -/
theorem witness_decodes : decode 0x6A42 = .ok (.ldImm 10 0x42) ∧ (withWord 0x6A42 State.reset).fault = none ∧
    decode (fetchWord (withWord 0x6A42 State.reset)) = .ok (.ldImm 10 0x42) ∧
    (withWord 0x6A42 State.reset).schedule = [] := by decide

/-- StepRunsDecoded, second clause. -/
theorem witness_scheduled_tick :
    decode (fetchWord { withWord 0x6A42 State.reset with schedule := [.tick, .advanceTimers] }) = .ok (.ldImm 10 0x42) ∧
    { withWord 0x6A42 State.reset with schedule := [.tick, .advanceTimers] }.schedule = .tick :: [.advanceTimers] := by
  decide

/-- RowsMutuallyExclusive: the words of two rows of one class. -/
theorem witness_rows_select : (opcodeTable.head?.map (fun r => r.selects 0x00E0)) = some true ∧
    (opcodeTable[1]?.map (fun r => r.selects 0x00EE)) = some true := by decide

/-- IllegalWordsRefused: illegal and legal words at the ends of the classes. -/
theorem witness_illegal : Illegal 0x0FFF ∧ ¬Illegal 0x00E0 ∧ ¬Illegal 0x1000 ∧ Illegal 0x5FFF ∧ ¬Illegal 0x5FF0 ∧
    Illegal 0x800F ∧ ¬Illegal 0x8FFE ∧ Illegal 0x9001 ∧ ¬Illegal 0xEFA1 ∧ Illegal 0xFFFF ∧ ¬Illegal 0xFF65 := by
  unfold Illegal; refine ⟨?_, ?_, ?_, ?_, ?_, ?_, ?_, ?_, ?_, ?_, ?_⟩ <;> decide

/-- UnknownOpcodeRecorded. -/
theorem witness_unknown : (withWord 0x800F State.reset).fault = none ∧
    decode (fetchWord (withWord 0x800F State.reset)) = .error (.unknownOpcode 0x800F) := by decide

/-- TickOnlyWhenRunning and FaultIsFinal: a halted core on which a step still happens. -/
theorem witness_halted : ∃ (s t : State) (r : FaultRecord), s.fault = some r ∧ step s = .next t :=
  ⟨{ State.reset with fault := some ⟨.unknownOpcode, 0, 0x200⟩, schedule := [.advanceTimers] }, _, _, rfl, rfl⟩

/-- TickHasOneOutcome: each of the three outcomes. -/
theorem witness_outcomes : tickOutcome (withWord 0x6A42 State.reset) = some .executed ∧
    tickOutcome (withWord 0xF00A State.reset) = some .waiting ∧
    tickOutcome (withWord 0xFFFF State.reset) = some (.faulted .unknownOpcode 0xFFFF 0x200) := by decide

/-- FaultSources: the call at a cap of 0, and the key skips on 16 and 255. -/
theorem witness_faults :
    gives (exec (.call 0x300) (under { Config.runner with stackLimit := some 0 } State.reset))
      (fun t => t.fault.isSome) = true ∧
    gives (exec (.skp 1) (regs [(1, 16)])) (fun t => t.fault.isSome) = true ∧
    gives (exec (.sknp 1) (regs [(1, 255)])) (fun t => t.fault.isSome) = true := by decide

/-- IdleLoopStays: at 0x200, and at the last PC it allows. -/
theorem witness_idle : (withWord 0x1200 State.reset).idle ∧
    (withWord 0x1FFF { State.reset with pc := 0xFFF }).idle := by decide

/-- InvariantKept and ConfigurationFixed: a state that meets the invariant and steps. -/
theorem witness_inv : ∃ s t : State, s.Inv ∧ step s = .next t :=
  ⟨State.reset, _, ⟨by decide, by decide, by decide, by intro n h; cases h⟩, rfl⟩

/-- KeysAndDrawFlagAreTheHosts: each clause's change happens. -/
theorem witness_host_changes :
    gives (step { State.reset with schedule := [.keySample (Vector.replicate 16 true)] })
      (fun t => t.keys ≠ State.reset.keys) = true ∧
    gives (step { State.reset with drawFlag := true, schedule := [.clearDrawFlag] })
      (fun t => t.drawFlag = false) = true := by decide

/-- StackAndMemoryWriters: changes of the stack and of memory. -/
theorem witness_stack_memory : gives (exec (.call 0x300) State.reset) (fun t => t.stack ≠ State.reset.stack) = true ∧
    gives (exec .ret { State.reset with stack := [4] }) (fun t => t.stack ≠ [4]) = true ∧
    gives (exec (.ldBVx 0) (regs [(0, 9)])) (fun t => memRead t 2 ≠ memRead State.reset 2) = true ∧
    gives (exec (.ldMemVx 0) (regs [(0, 9)])) (fun t => memRead t 0 ≠ memRead State.reset 0) = true := by decide

/-- DisplayWriters: changes of the grid and of draw_flag. -/
theorem witness_display : gives (exec (.drw 0 1 1) (setI State.reset 0x050))
      (fun t => t.display ≠ State.reset.display ∧ t.drawFlag ≠ State.reset.drawFlag) = true ∧
    gives (exec .cls (under { Config.runner with clsSetsDrawFlag := true } State.reset))
      (fun t => t.drawFlag ≠ State.reset.drawFlag) = true := by decide

/-- AddressAndTimerWriters: changes of I, DT and ST. -/
theorem witness_address_timers :
    gives (exec (.ldMemVx 0) (under { Config.runner with saveLoadIncrement := true } State.reset))
      (fun t => t.i ≠ State.reset.i) = true ∧
    gives (exec (.ldDtVx 1) (regs [(1, 7)])) (fun t => t.dt ≠ State.reset.dt) = true ∧
    gives (exec (.ldStVx 1) (regs [(1, 7)])) (fun t => t.st ≠ State.reset.st) = true := by decide

/-- RegisterWriters: a destination changes, and VF as a flag of an instruction that does not wait. -/
theorem witness_registers : gives (exec (.ldImm 3 1) State.reset) (fun t => getV t 3 ≠ getV State.reset 3) = true ∧
    gives (exec (.sub 1 2) State.reset) (fun t => getV t 15 ≠ getV State.reset 15) = true ∧
    flagWriter State.reset.config (.sub 1 2) = true ∧ waits (.sub 1 2) State.reset = false := by decide

/-- BitwiseOperations: both values of vf_reset. -/
theorem witness_vfReset : (under { Config.runner with vfReset := true } State.reset).config.vfReset = true ∧
    State.reset.config.vfReset = false := by decide

/-- ComparingSkips: each condition holds somewhere and fails somewhere. -/
theorem witness_compare : (getV (regs [(3, 0x10)]) 3).toNat = (0x10 : Byte).toNat ∧
    (getV (regs [(3, 0x10)]) 3).toNat ≠ (0x11 : Byte).toNat ∧
    (getV (regs [(3, 0x10)]) 3).toNat ≠ (getV (regs [(3, 0x10)]) 4).toNat ∧
    (getV (regs [(3, 0x10)]) 4).toNat = (getV (regs [(3, 0x10)]) 5).toNat := by decide

/-- KeySkips: the last index below 16, the first above it under each policy, and both answers of a skip. -/
theorem witness_key_skips : (getV (regs [(0, 15)]) 0).toNat < 16 ∧
    (16 ≤ (getV (regs [(0, 16)]) 0).toNat ∧ (regs [(0, 16)]).config.keyIndexPolicy = .fault) ∧
    (under { Config.runner with keyIndexPolicy := .mask } (regs [(0, 16)])).config.keyIndexPolicy = .mask ∧
    keyAt (key 15 .pressed State.reset) 15 = .pressed ∧ keyAt State.reset 15 = .none := by decide

/-- ReturnPops: the empty stack, and a stack of two. -/
theorem witness_ret : State.reset.stack = [] ∧ { State.reset with stack := [2, 4] }.stack = [2] ++ [4] := by decide

/-- CallPushes: no cap, one below the cap, and at a cap of 0. -/
theorem witness_call : State.reset.config.stackLimit ≠ some State.reset.stack.length ∧
    (under { Config.runner with stackLimit := some 1 } State.reset).config.stackLimit ≠ some State.reset.stack.length ∧
    (under { Config.runner with stackLimit := some 0 } State.reset).config.stackLimit = some State.reset.stack.length := by
  decide

/-- ClearScreen: both values of CLS_SETS_DRAW_FLAG. -/
theorem witness_cls : (under { Config.runner with clsSetsDrawFlag := true } State.reset).config.clsSetsDrawFlag = true ∧
    State.reset.config.clsSetsDrawFlag = false := by decide

/-- DrawSpritePixels: its hypotheses, and a pixel at the corner of the grid. -/
theorem witness_draw : State.reset.displayFits ∧ 1 ≤ State.reset.config.displayH ∧
    (State.reset.config.displayWait && Config.stall State.reset.stalls) = false ∧
    63 < 64 ∧ 31 < State.reset.config.displayH := ⟨by decide, by decide, rfl, by decide, by decide⟩

/-- DrawSpriteCollision, first clause: a drawn bit on a pixel that is on. -/
theorem witness_collision : (pixelOn 0 0 (setI State.reset 0x050)).displayFits ∧
    gives (exec (.drw 0 1 1) (pixelOn 0 0 (setI State.reset 0x050))) (fun _ => true) = true ∧
    spriteDrawn (pixelOn 0 0 (setI State.reset 0x050)) 0 1 0 0 = true ∧
    ((pixelOn 0 0 (setI State.reset 0x050)).display.pixel 0 0 ^^
      decide (spriteTouches (pixelOn 0 0 (setI State.reset 0x050)) 0 1 0 0 0 % 2 = 1)) = true := by decide

/-- DrawSpriteCollision, second clause: a sprite of no rows has no drawn bit. -/
theorem witness_no_collision : ¬∃ r c, r < (0 : Nibble).toNat ∧ c < 8 ∧ spriteDrawn State.reset 0 1 r c = true :=
  fun ⟨r, _, h, _⟩ => Nat.not_lt_zero r h

/-- DrawStalls: both values of display_wait. -/
theorem witness_stall : (under { Config.runner with displayWait := true } State.reset).config.displayWait = true ∧
    State.reset.config.displayWait = false := by decide

/-- DrawTwiceRestores: the hypotheses of its frame, with a row of the font's glyph 0 on the clear grid. -/
theorem witness_draw_twice : ∃ s t u : State, s.displayFits ∧ 1 ≤ s.config.displayH ∧ s.config.displayWait = false ∧
    exec (.drw 0 1 1) s = .next t ∧ exec (.drw 0 1 1) t = .next u ∧ 16 ≤ s.config.displayH ∧
    spriteDrawn s 0 1 0 0 = true ∧ (∀ px py, s.display.pixel px py = false) :=
  ⟨setI State.reset 0x050, _, _, by decide, by decide, rfl, rfl, rfl, by decide, by decide,
    fun px py => Sys2Proof.Machine.Display.pixel_blank 32 px py⟩

/-- WaitKey: only the last key is Released, and no key is. -/
theorem witness_wait_key : keyAt (key 15 .released State.reset) 15 = .released ∧
    (∀ j : Reg, j < 15 → keyAt (key 15 .released State.reset) j ≠ .released) ∧
    (∀ k : Reg, keyAt State.reset k ≠ .released) := by decide

/-- DecimalDigits and StoreBlock: an address beside the stored bytes, across the top of memory. -/
theorem witness_beside : (∀ j : Nat, j < 3 → 2 % 4096 ≠ effAddr (setI State.reset 0xFFF) j % 4096) ∧
    (∀ k : Reg, k ≤ 15 → 16 % 4096 ≠ effAddr State.reset k.val % 4096) ∧ (15 : Reg) ≤ 15 := by decide

/-- StoreThenLoad. -/
theorem witness_store_load : ∃ s t u w : State, exec (.ldMemVx 15) s = .next t ∧ (∀ a, memRead u a = memRead t a) ∧
    u.i = s.i ∧ exec (.ldVxMem 15) u = .next w :=
  ⟨regs [(3, 7)], _, _, _, rfl, fun _ => rfl, rfl, rfl⟩

/-- FetchSeesStore: X = 0, where only the one-byte clause applies, and X = 15 with its last two registers. -/
theorem witness_store_fetch : (∃ s t : State, exec (.ldMemVx 0) s = .next t) ∧ (0 : Reg) ≤ 0 ∧
    (∃ s t : State, exec (.ldMemVx 15) s = .next t) ∧ (15 : Reg).val = (14 : Reg).val + 1 ∧ (15 : Reg) ≤ 15 :=
  ⟨⟨State.reset, _, rfl⟩, by decide, ⟨State.reset, _, rfl⟩, by decide, by decide⟩

/-- R85 at the top of memory: FX55 at I = 0xFFF, then the fetches at 0xFFF and one below. -/
theorem test_store_fetch : gives (exec (.ldMemVx 1) (setI (regs [(0, 0x60), (1, 0x12)]) 0xFFF))
    (fun t => fetchWord (setPc t 0xFFF) = 0x6012 ∧ fetchWord (setPc t 0xFFE) = 0x0060) = true := by decide

/-- R344: an FX0A with no Released key waits for one; one with a Released key, and a DXYN under display_wait, do not. -/
theorem test_waitsForKey : (withWord 0xF30A State.reset).waitsForKey ∧
    ¬(withWord 0xF30A (key 7 .released State.reset)).waitsForKey ∧
    ¬(withWord 0xD011 (under { Config.runner with displayWait := true } State.reset)).waitsForKey := by decide

/-- FairKeys: the sample that it asks for, of a key that was Pressed and is not held. -/
theorem witness_samplesRelease : State.samplesRelease
    { key 15 .pressed State.reset with schedule := [.keySample (Vector.replicate 16 false)] } :=
  ⟨_, _, rfl, 15, by decide, by decide⟩

/-- TimersCountDown, KeypadTransitions, HostReadsAndClears: the schedules they take. -/
theorem witness_schedules :
    { State.reset with schedule := [.advanceTimers] }.schedule = .advanceTimers :: [] ∧
    { State.reset with schedule := [.keySample (Vector.replicate 16 true), .tick] }.schedule =
      .keySample (Vector.replicate 16 true) :: [.tick] ∧
    { State.reset with schedule := [.clearDrawFlag] }.schedule = .clearDrawFlag :: [] ∧
    { State.reset with schedule := [.inspect, .tick] }.schedule = .inspect :: [.tick] := by decide

/-- KeypadTransitions: each state of a key. -/
theorem witness_keys : keyAt (key 0 .pressed State.reset) 0 = .pressed ∧ keyAt (key 0 .down State.reset) 0 = .down ∧
    keyAt State.reset 0 = .none ∧ keyAt (key 0 .released State.reset) 0 = .released := by decide

/-- ResetTransaction: the longest ROM, the shortest refused one, and the longest font. -/
theorem witness_reset : (List.replicate 3584 (0 : Byte)).length ≤ 3584 ∧ 3584 < (List.replicate 3585 (0 : Byte)).length ∧
    (List.replicate 432 (0 : Byte)).length ≤ 0x200 - 0x050 ∧ (runnerValues 32).font.length ≤ 0x200 - 0x050 := by
  simp only [List.length_replicate]; decide

/-- ResetGivenValues: an address below the font, above it, and the last one. -/
theorem witness_outside_font : (0x04F < 4096 ∧ 0x04F < 0x050) ∧ (0x0A0 < 4096 ∧ 0x09F < 0x0A0) ∧ 0x09F < 0xFFF := by
  decide

end Sys2Proof.Tests
end

section
/-! PROOF. Which parts of the state an instruction may change, said once for every instruction; the writers of each
part follow from it. -/

namespace Sys2Proof.Machine

/-! ## Changing only some parts -/

/-- `s` with the listed parts taken from `t`. -/
def State.patch (s t : State) (listed : List Part) : State :=
  { v := if .v ∈ listed then t.v else s.v
    i := if .i ∈ listed then t.i else s.i
    pc := if .pc ∈ listed then t.pc else s.pc
    stack := if .stack ∈ listed then t.stack else s.stack
    dt := if .dt ∈ listed then t.dt else s.dt
    st := if .st ∈ listed then t.st else s.st
    mem := if .mem ∈ listed then t.mem else s.mem
    display := if .display ∈ listed then t.display else s.display
    keys := if .keys ∈ listed then t.keys else s.keys
    drawFlag := if .drawFlag ∈ listed then t.drawFlag else s.drawFlag
    fault := if .fault ∈ listed then t.fault else s.fault
    config := if .config ∈ listed then t.config else s.config
    schedule := if .schedule ∈ listed then t.schedule else s.schedule
    draws := if .draws ∈ listed then t.draws else s.draws
    stalls := if .stalls ∈ listed then t.stalls else s.stalls }

/-- `t` differs from `s` in no part but those listed. Unlike `UnchangedBut` it compares memory as it is listed, so that
it carries the canonical form along; where the list is literal and `t` an update of `s`, it holds by `rfl`. -/
def ChangesOnly (listed : List Part) (s t : State) : Prop := t = s.patch t listed

variable {listed : List Part} {s t : State}

theorem ChangesOnly.unchangedBut (h : ChangesOnly listed s t) : UnchangedBut listed s t := by
  intro p hp
  rw [h]
  cases p <;> simp [Part.same, State.patch, getV, memRead, hp]

theorem ChangesOnly.mem_eq (h : ChangesOnly listed s t) (hp : .mem ∉ listed) : t.mem = s.mem := by
  rw [h]
  exact if_neg hp

/-- It suffices to look at the state in which the tick completes. -/
theorem ChangesOnly.of_complete {u : State} (h : complete u = .next t) (hu : ChangesOnly listed s u) :
    ChangesOnly listed s t :=
  Host.Outcome.next.inj h ▸ hu

/-! ## The parts that an instruction may change -/

/-- The part, if a quirk is on. -/
def partIf (quirk : Bool) (p : Part) : List Part := if quirk then [p] else []

@[simp] theorem mem_partIf {quirk : Bool} {p q : Part} : p ∈ partIf quirk q ↔ p = q ∧ quirk = true := by
  cases quirk <;> simp [partIf]

/-- A part that may change only under a quirk. -/
theorem ChangesOnly.append_partIf {quirk : Bool} {p : Part} (hon : quirk = true → ChangesOnly (listed ++ [p]) s t)
    (hoff : quirk = false → ChangesOnly listed s t) : ChangesOnly (listed ++ partIf quirk p) s t := by
  cases quirk with
  | false => simpa [partIf] using hoff rfl
  | true => exact hon rfl

/-- The parts of the state that an instruction may change under a configuration (R31 to R48). -/
def writtenParts (c : Config) : Instr → List Part
  | .cls => [.pc, .display] ++ partIf c.clsSetsDrawFlag .drawFlag
  | .ret => [.pc, .stack]
  | .call _ => [.pc, .stack, .fault]
  | .jp _ | .jpV0 _ | .seImm _ _ | .sneImm _ _ | .seReg _ _ | .sneReg _ _ => [.pc]
  | .skp _ | .sknp _ => [.pc, .fault]
  | .ldImm _ _ | .addImm _ _ | .ldReg _ _ | .or _ _ | .and _ _ | .xor _ _ | .addReg _ _ | .sub _ _ | .shr _ _
  | .subn _ _ | .shl _ _ | .ldVxDt _ | .ldVxK _ => [.pc, .v]
  | .rnd _ _ => [.pc, .v, .draws]
  | .ldI _ | .addIVx _ | .ldFVx _ => [.pc, .i]
  | .ldDtVx _ => [.pc, .dt]
  | .ldStVx _ => [.pc, .st]
  | .ldBVx _ => [.pc, .mem]
  | .ldMemVx _ => [.pc, .mem] ++ partIf c.saveLoadIncrement .i
  | .ldVxMem _ => [.pc, .v] ++ partIf c.saveLoadIncrement .i
  | .drw _ _ _ => [.pc, .v, .display, .drawFlag, .stalls]

variable {c : Config} {i : Instr}

theorem stack_mem_writtenParts : .stack ∈ writtenParts c i ↔ i = .ret ∨ ∃ nnn, i = .call nnn := by
  cases i <;> simp [writtenParts]

theorem mem_mem_writtenParts : .mem ∈ writtenParts c i ↔ ∃ x, i = .ldBVx x ∨ i = .ldMemVx x := by
  cases i <;> simp [writtenParts]

theorem display_mem_writtenParts : .display ∈ writtenParts c i ↔ i = .cls ∨ ∃ x y n, i = .drw x y n := by
  cases i <;> simp [writtenParts]

theorem drawFlag_mem_writtenParts :
    .drawFlag ∈ writtenParts c i ↔ (i = .cls ∧ c.clsSetsDrawFlag = true) ∨ ∃ x y n, i = .drw x y n := by
  cases i <;> simp [writtenParts]

theorem i_mem_writtenParts :
    .i ∈ writtenParts c i ↔ (∃ nnn, i = .ldI nnn) ∨ (∃ x, i = .addIVx x ∨ i = .ldFVx x) ∨
      (c.saveLoadIncrement = true ∧ ∃ x, i = .ldMemVx x ∨ i = .ldVxMem x) := by
  cases i <;> simp [writtenParts]

theorem dt_mem_writtenParts : .dt ∈ writtenParts c i ↔ ∃ x, i = .ldDtVx x := by
  cases i <;> simp [writtenParts]

theorem st_mem_writtenParts : .st ∈ writtenParts c i ↔ ∃ x, i = .ldStVx x := by
  cases i <;> simp [writtenParts]

theorem keys_not_mem_writtenParts : .keys ∉ writtenParts c i := by
  cases i <;> simp [writtenParts]

theorem config_not_mem_writtenParts : .config ∉ writtenParts c i := by
  cases i <;> simp [writtenParts]

theorem schedule_not_mem_writtenParts : .schedule ∉ writtenParts c i := by
  cases i <;> simp [writtenParts]

/-! ## What each instruction with more than one end can do -/

/-- All that 2NNN can do: fault at the cap, or push and jump (R193). -/
theorem execCall_cases {nnn : Addr} (h : execCall nnn s = .next t) :
    (stackFull s = true ∧ t = { s with fault := some ⟨.stackOverflow, encode (.call nnn), s.pc⟩ }) ∨
      (stackFull s = false ∧ t = { s with pc := zext nnn, stack := s.stack ++ [s.pc + 2] }) := by
  unfold execCall at h
  split at h
  · exact .inl ⟨‹_›, (Host.Outcome.next.inj h).symm⟩
  · exact .inr ⟨Bool.eq_false_iff.mpr ‹_›, (Host.Outcome.next.inj h).symm⟩

/-- All that EX9E can do: skip or not as the key says, or fault (R198, R203). -/
theorem execSkp_cases {x : Reg} (h : execSkp x s = .next t) :
    (∃ k, keyIndex s.config (getV s x) = .ok k ∧ t = skipIf (keyAt s k).held (advance s)) ∨
      ∃ kind, keyIndex s.config (getV s x) = .error kind ∧
        t = { s with fault := some ⟨kind, encode (.skp x), s.pc⟩ } := by
  unfold execSkp at h
  split at h
  · exact .inl ⟨_, ‹_›, (Host.Outcome.next.inj h).symm⟩
  · exact .inr ⟨_, ‹_›, (Host.Outcome.next.inj h).symm⟩

/-- All that EXA1 can do: skip or not as the key says, or fault (R199, R203). -/
theorem execSknp_cases {x : Reg} (h : execSknp x s = .next t) :
    (∃ k, keyIndex s.config (getV s x) = .ok k ∧ t = skipIf (!(keyAt s k).held) (advance s)) ∨
      ∃ kind, keyIndex s.config (getV s x) = .error kind ∧
        t = { s with fault := some ⟨kind, encode (.sknp x), s.pc⟩ } := by
  unfold execSknp at h
  split at h
  · exact .inl ⟨_, ‹_›, (Host.Outcome.next.inj h).symm⟩
  · exact .inr ⟨_, ‹_›, (Host.Outcome.next.inj h).symm⟩

/-- All that FX0A can do: take a Released key, or leave the state as it was (R262). -/
theorem execLdVxK_cases {x : Reg} (h : execLdVxK x s = .next t) :
    (∃ k, firstReleased s = some k ∧ t = setV (advance s) x (BitVec.ofNat 8 k.val)) ∨
      (firstReleased s = none ∧ t = s) := by
  unfold execLdVxK at h
  split at h
  · exact .inl ⟨_, ‹_›, (Host.Outcome.next.inj h).symm⟩
  · rw [wait_advance] at h
    exact .inr ⟨‹_›, (Host.Outcome.next.inj h).symm⟩

/-- The state after DXYN has drawn (R231). -/
def drawn (x y : Reg) (n : Nibble) (s : State) : State :=
  { setVF (advance s) (flagByte (drawSprite s x y n).hit) with
    display := (drawSprite s x y n).grid, drawFlag := true }

/-- All that DXYN can do: wait or draw, counting a stall input where it reads one (R231, R232). -/
theorem execDrw_cases {x y : Reg} {n : Nibble} (h : execDrw x y n s = .next t) :
    (waits (.drw x y n) s = true ∧ t = { s with stalls := s.stalls + 1 }) ∨
      (waits (.drw x y n) s = false ∧
        t = drawn x y n { s with stalls := if s.config.displayWait then s.stalls + 1 else s.stalls }) := by
  simp only [waits]
  unfold execDrw drawOrWait at h
  cases hw : s.config.displayWait with
  | false =>
    simp only [hw, Bool.false_eq_true, if_false, Bool.and_false] at h
    exact .inr ⟨rfl, (Host.Outcome.next.inj h).symm⟩
  | true =>
    cases hs : Config.stall s.stalls with
    | false =>
      simp only [hw, hs, if_true, Bool.and_false, Bool.false_eq_true, if_false] at h
      exact .inr ⟨rfl, (Host.Outcome.next.inj h).symm⟩
    | true =>
      simp only [hw, hs, if_true, Bool.and_true, wait_advance] at h
      exact .inl ⟨rfl, (Host.Outcome.next.inj h).symm⟩

/-! ## Every instruction changes only its parts -/

theorem skipIf_changesOnly (b : Bool) (s : State) : ChangesOnly [.pc] s (skipIf b (advance s)) := by
  rw [skipIf_eq]
  rfl

theorem finishLogic_changesOnly {x : Reg} {r : Byte} (h : finishLogic s x r = .next t) : ChangesOnly [.pc, .v] s t := by
  refine .of_complete h ?_
  rw [applyVfReset_eq]
  rfl

theorem finishAlu_changesOnly {x : Reg} {r f : Byte} (h : finishAlu s x r f = .next t) : ChangesOnly [.pc, .v] s t :=
  .of_complete h rfl

/-- An instruction changes no part but those that `writtenParts` lists for it. -/
theorem exec_changesOnly (h : exec i s = .next t) : ChangesOnly (writtenParts s.config i) s t := by
  cases i with
  | cls =>
    refine .of_complete h (.append_partIf (fun _ => rfl) fun hq => ?_)
    rw [hq, Bool.or_false]
    rfl
  | ret =>
    refine .of_complete h ?_
    rcases popToPc_cases (advance s) with ⟨-, e⟩ | ⟨rest, a, -, e⟩ <;> rw [e] <;> rfl
  | call nnn => obtain ⟨-, rfl⟩ | ⟨-, rfl⟩ := execCall_cases h <;> rfl
  | jp _ | jpV0 _ => exact .of_complete h rfl
  | seImm _ _ | sneImm _ _ | seReg _ _ | sneReg _ _ => exact .of_complete h (skipIf_changesOnly _ s)
  | skp x =>
    obtain ⟨k, -, rfl⟩ | ⟨kind, -, rfl⟩ := execSkp_cases h
    · rw [skipIf_eq]
      rfl
    · rfl
  | sknp x =>
    obtain ⟨k, -, rfl⟩ | ⟨kind, -, rfl⟩ := execSknp_cases h
    · rw [skipIf_eq]
      rfl
    · rfl
  | ldImm _ _ | addImm _ _ | ldReg _ _ | ldVxDt _ => exact .of_complete h rfl
  | or _ _ | and _ _ | xor _ _ => exact finishLogic_changesOnly h
  | addReg _ _ | sub _ _ | shr _ _ | subn _ _ | shl _ _ => exact finishAlu_changesOnly h
  | rnd _ _ => exact .of_complete h rfl
  | ldVxK x => obtain ⟨k, -, rfl⟩ | ⟨-, rfl⟩ := execLdVxK_cases h <;> rfl
  | ldI _ | addIVx _ | ldFVx _ | ldDtVx _ | ldStVx _ | ldBVx _ => exact .of_complete h rfl
  | ldMemVx x =>
    refine .of_complete h (.append_partIf (fun hq => ?_) fun hq => ?_) <;>
      rw [incrementI_eq, storeRegs_eq, advance_config, hq] <;> rfl
  | ldVxMem x =>
    refine .of_complete h (.append_partIf (fun hq => ?_) fun hq => ?_) <;>
      rw [incrementI_eq, loadRegs_eq, advance_config, hq] <;> rfl
  | drw x y n => obtain ⟨-, rfl⟩ | ⟨-, rfl⟩ := execDrw_cases h <;> rfl

/-! ## Every step keeps the configuration and the invariant -/

/-- The invariant follows from that of `s` and, for each part that it speaks of and `t` may change, from what `t` has
there. -/
theorem State.Inv.of_changesOnly (hs : s.Inv) (h : ChangesOnly listed s t) (hconfig : .config ∉ listed)
    (hmem : .mem ∈ listed → t.mem.wf) (hdisplay : .display ∈ listed → t.display.length = s.config.displayH)
    (hstack : .stack ∈ listed → ∀ n, s.config.stackLimit = some n → t.stack.length ≤ n) : t.Inv := by
  have hc : t.config = s.config := h.unchangedBut .config hconfig
  refine ⟨?_, hc ▸ hs.config, ?_, ?_⟩
  · by_cases hp : .mem ∈ listed
    · exact hmem hp
    · exact h.mem_eq hp ▸ hs.mem
  · rw [State.displayFits, hc]
    by_cases hp : .display ∈ listed
    · exact hdisplay hp
    · exact (h.unchangedBut .display hp : t.display = s.display) ▸ hs.display
  · rw [State.stackFits, hc]
    by_cases hp : .stack ∈ listed
    · exact hstack hp
    · exact (h.unchangedBut .stack hp : t.stack = s.stack) ▸ hs.stack

/-- FX33 and FX55, the only instructions that store, keep the canonical form of memory. -/
theorem exec_mem_wf (hs : s.mem.wf) (h : exec i s = .next t) (hi : ∃ x, i = .ldBVx x ∨ i = .ldMemVx x) : t.mem.wf := by
  obtain ⟨x, rfl | rfl⟩ := hi <;> obtain rfl := Host.Outcome.next.inj h
  · exact memWrite_wf (memWrite_wf (memWrite_wf hs _ _) _ _) _ _
  · rw [incrementI_eq]
    exact storeRegs_wf (s := advance s) hs _

/-- 00E0 and DXYN leave a grid of the configured size. -/
theorem exec_display_length (hs : s.displayFits) (h : exec i s = .next t) (hi : i = .cls ∨ ∃ x y n, i = .drw x y n) :
    t.display.length = s.config.displayH := by
  obtain rfl | ⟨x, y, n, rfl⟩ := hi
  · obtain rfl := Host.Outcome.next.inj h
    exact Display.length_blank _
  · obtain ⟨-, rfl⟩ | ⟨-, rfl⟩ := execDrw_cases h
    · exact hs
    · exact (drawSprite_length _ x y n).trans hs

/-- 00EE and 2NNN leave a stack within its cap: a call pushes only below it (R302). -/
theorem exec_stackFits (hs : s.stackFits) (h : exec i s = .next t) (hi : i = .ret ∨ ∃ nnn, i = .call nnn) :
    ∀ n, s.config.stackLimit = some n → t.stack.length ≤ n := by
  intro n hn
  have hle := hs n hn
  obtain rfl | ⟨nnn, rfl⟩ := hi
  · obtain rfl := Host.Outcome.next.inj h
    rcases popToPc_cases (advance s) with ⟨-, e⟩ | ⟨rest, a, hst, e⟩ <;> rw [e]
    · exact hle
    · rw [← advance_stack, hst, List.length_append] at hle
      exact Nat.le_of_add_right_le hle
  · obtain ⟨-, rfl⟩ | ⟨hfull, rfl⟩ := execCall_cases h
    · exact hle
    · have hne : s.stack.length ≠ n := by
        rintro rfl
        exact Bool.eq_false_iff.mp hfull ((stackFull_iff s).mpr hn)
      rw [List.length_append]
      exact Nat.lt_of_le_of_ne hle hne

theorem exec_keeps_config (h : exec i s = .next t) : t.config = s.config :=
  (exec_changesOnly h).unchangedBut .config config_not_mem_writtenParts

theorem exec_keeps_inv (hs : s.Inv) (h : exec i s = .next t) : t.Inv :=
  hs.of_changesOnly (exec_changesOnly h) config_not_mem_writtenParts
    (fun hp => exec_mem_wf hs.mem h (mem_mem_writtenParts.mp hp))
    (fun hp => exec_display_length hs.display h (display_mem_writtenParts.mp hp))
    (fun hp => exec_stackFits hs.stack h (stack_mem_writtenParts.mp hp))

/-- The parts that a step may change otherwise than by an instruction: those of the host, and the record of a word that
does not decode (R134, R340). -/
def hostParts : List Part := [.dt, .st, .keys, .drawFlag, .fault, .schedule]

/-- A property that every instruction keeps, and that does not speak of the host's parts, is kept by every tick. -/
theorem tick_keeps {P : State → Prop} (hexec : ∀ {i s t}, P s → exec i s = .next t → P t)
    (hhost : ∀ {s t}, P s → ChangesOnly hostParts s t → P t) (hs : P s) (h : tick s = .next t) : P t := by
  obtain ⟨-, ⟨i, -, hi⟩ | ⟨-, rfl⟩⟩ := tick_cases h
  · exact hexec hs hi
  · exact hhost hs rfl

/-- A property that every instruction keeps, and that does not speak of the host's parts, is kept by every step. -/
theorem step_keeps {P : State → Prop} (hexec : ∀ {i s t}, P s → exec i s = .next t → P t)
    (hhost : ∀ {s t}, P s → ChangesOnly hostParts s t → P t) (hs : P s) (h : step s = .next t) : P t := by
  obtain ⟨-, ht⟩ | ⟨rest, -, ht⟩ | ⟨a, rest, -, -, rfl⟩ := step_cases h
  · exact tick_keeps hexec hhost hs ht
  · exact tick_keeps hexec hhost (hhost (t := { s with schedule := rest }) hs rfl) ht
  · refine hhost hs ?_
    cases a <;> rfl

theorem step_keeps_config (h : step s = .next t) : t.config = s.config :=
  step_keeps (P := fun u => u.config = s.config) (fun hu hi => (exec_keeps_config hi).trans hu)
    (fun hu hc => (hc.unchangedBut .config (by decide)).trans hu) rfl h

theorem step_keeps_inv (hs : s.Inv) (h : step s = .next t) : t.Inv :=
  step_keeps exec_keeps_inv
    (fun hu hc => hu.of_changesOnly hc (by decide) (absurd · (by decide)) (absurd · (by decide)) (absurd · (by decide)))
    hs h

/-! ## What an instruction leaves in the registers -/

/-- A value of the flag (R36). -/
def IsFlag (b : Byte) : Prop := b = 0 ∨ b = 1

theorem isFlag_flagByte (b : Bool) : IsFlag (flagByte b) := by
  cases b
  · exact .inl rfl
  · exact .inr rfl

theorem isFlag_and_one (b : Byte) : IsFlag (b &&& 1) := by
  have h : (b &&& 1).toNat = b.toNat % 2 := Nat.and_one_is_mod _
  unfold IsFlag
  rw [← BitVec.toNat_inj, ← BitVec.toNat_inj, h]
  exact Nat.mod_two_eq_zero_or_one _

/-- The registers after a flag-setting operation: the flag is written last (R163). -/
theorem getV_finishAlu {x : Reg} {r f : Byte} (h : finishAlu s x r f = .next t) (k : Reg) :
    getV t k = if k = 15 then f else if k = x then r else getV s k := by
  obtain rfl := Host.Outcome.next.inj h
  rw [getV_setVF, getV_setV]
  rfl

/-- The registers after a bitwise operation: under vf_reset the flag is cleared last (R153 to R155). -/
theorem getV_finishLogic {x : Reg} {r : Byte} (h : finishLogic s x r = .next t) (k : Reg) :
    getV t k = if k = 15 ∧ s.config.vfReset = true then 0 else if k = x then r else getV s k := by
  obtain rfl := Host.Outcome.next.inj h
  unfold applyVfReset
  rw [setV_config, advance_config]
  cases s.config.vfReset <;> simp <;> rfl

/-- The registers after drawing: VF alone may differ (R231). -/
theorem getV_drawn (x y : Reg) (n : Nibble) (s : State) (k : Reg) :
    getV (drawn x y n s) k = if k = 15 then flagByte (drawSprite s x y n).hit else getV s k :=
  getV_setVF (advance s) k _

/-- The registers after an instruction that completes with a byte in VX. -/
theorem getV_of_completes_setV {u : State} {x k : Reg} {b : Byte} (h : complete (setV u x b) = .next t)
    (hu : u.v = s.v) (hk : k ≠ x) : getV t k = getV s k := by
  obtain rfl := Host.Outcome.next.inj h
  rw [getV_setV, if_neg hk, getV_congr hu]

theorem getV_incrementI (x : Reg) (s : State) (k : Reg) : getV (incrementI x s) k = getV s k := by
  rw [incrementI_eq]
  rfl

/-- A register that is neither a destination nor the written flag keeps its value (R33). -/
theorem exec_keeps_other_registers {k : Reg} (h : exec i s = .next t) (hd : destination i k = false)
    (hf : ¬(k = 15 ∧ flagWriter s.config i = true)) : getV t k = getV s k := by
  by_cases hv : .v ∈ writtenParts s.config i
  case neg => exact (exec_changesOnly h).unchangedBut .v hv k
  cases i with
  | ldImm x _ | addImm x _ | ldReg x _ | ldVxDt x | rnd x _ =>
    exact getV_of_completes_setV h rfl (of_decide_eq_false hd)
  | or x y | and x y | xor x y =>
    rw [getV_finishLogic h, if_neg (show ¬(k = 15 ∧ s.config.vfReset = true) from hf), if_neg (of_decide_eq_false hd)]
  | addReg x y | sub x y | shr x y | subn x y | shl x y =>
    rw [getV_finishAlu h, if_neg fun hk => hf ⟨hk, rfl⟩, if_neg (of_decide_eq_false hd)]
  | ldVxK x =>
    obtain ⟨r, -, rfl⟩ | ⟨-, rfl⟩ := execLdVxK_cases h
    · exact getV_of_completes_setV rfl rfl (of_decide_eq_false hd)
    · rfl
  | ldVxMem x =>
    have hk : ¬k.val ≤ x.val := of_decide_eq_false hd
    obtain rfl := Host.Outcome.next.inj h
    rw [getV_incrementI, getV_loadRegs (by omega), if_neg (by omega)]
    rfl
  | drw x y n =>
    obtain ⟨-, rfl⟩ | ⟨-, rfl⟩ := execDrw_cases h
    · rfl
    · rw [getV_drawn, if_neg fun hk => hf ⟨hk, rfl⟩]
      rfl
  | _ => simp [writtenParts] at hv

/-- An instruction that writes the flag and does not wait leaves 0 or 1 in VF (R36). -/
theorem exec_leaves_flag (h : exec i s = .next t) (hf : flagWriter s.config i = true) (hw : waits i s = false) :
    IsFlag (getV t 15) := by
  cases i with
  | addReg _ _ | sub _ _ | subn _ _ =>
    rw [getV_finishAlu h, if_pos rfl]
    exact isFlag_flagByte _
  | shr x y | shl x y =>
    rw [getV_finishAlu h, if_pos rfl]
    exact isFlag_and_one _
  | or _ _ | and _ _ | xor _ _ =>
    rw [getV_finishLogic h, if_pos ⟨rfl, hf⟩]
    exact .inl rfl
  | drw x y n =>
    obtain ⟨hwait, -⟩ | ⟨-, rfl⟩ := execDrw_cases h
    · rw [hw] at hwait
      contradiction
    · rw [getV_drawn, if_pos rfl]
      exact isFlag_flagByte _
  | _ => contradiction

/-! ## What an instruction leaves in draw_flag -/

/-- An instruction that changes draw_flag sets it (R43). -/
theorem exec_sets_drawFlag (h : exec i s = .next t) (hne : t.drawFlag ≠ s.drawFlag)
    (hi : (i = .cls ∧ s.config.clsSetsDrawFlag = true) ∨ ∃ x y n, i = .drw x y n) : t.drawFlag = true := by
  obtain ⟨rfl, hc⟩ | ⟨x, y, n, rfl⟩ := hi
  · obtain rfl := Host.Outcome.next.inj h
    show (s.drawFlag || s.config.clsSetsDrawFlag) = true
    rw [hc, Bool.or_true]
  · obtain ⟨-, rfl⟩ | ⟨-, rfl⟩ := execDrw_cases h
    · exact absurd rfl hne
    · rfl

/-! ## The timer transfers and the machine at reset -/

/-- The words of FX07, FX15 and FX18, sixteen of each (R104). -/
theorem decode_timer_words :
    (∀ x, decode (Claims.wordS 0xF007 x) = .ok (.ldVxDt x)) ∧
      (∀ x, decode (Claims.wordS 0xF015 x) = .ok (.ldDtVx x)) ∧
      ∀ x, decode (Claims.wordS 0xF018 x) = .ok (.ldStVx x) := by
  decide

/-- PC two further and a byte in VX, and nothing else. -/
theorem writesV_setV_advance (s : State) (x : Reg) (b : Byte) : Claims.WritesV s (setV (advance s) x b) x b :=
  ⟨fun k => getV_setV (advance s) x k b, rfl, ChangesOnly.unchangedBut rfl⟩

theorem reset_inv : State.reset.Inv where
  mem := reset_mem_wf
  config := rfl
  display := List.length_replicate
  stack := fun _ h => nomatch h

/-- Outside the font unlisted memory reads as 0x00 (R49, R79). -/
theorem Memory.unlisted_outside_font {a : Nat} (h : a < 0x050 ∨ 0x09F < a) : Memory.unlisted a = 0 := by
  unfold Memory.unlisted fontStart
  split
  · exact List.getD_eq_default _ _ (by rw [fontData_length]; omega)
  · rfl

end Sys2Proof.Machine

namespace Sys2Proof.Proofs

open Sys2Proof.Machine

/-- Settles O16: nothing is listed in memory, and the stack has no cap. -/
theorem invariantAtReset : Obligations.InvariantAtReset := reset_inv

/-- Settles O17: no instruction changes a part that the invariant speaks of but 00E0, 00EE, 2NNN, DXYN, FX33 and FX55,
and each of these keeps it. -/
theorem invariantKept : Obligations.InvariantKept := fun _ _ => step_keeps_inv

/-- Settles O18: the configuration is among the parts of no instruction, and the host does not touch it. -/
theorem configurationFixed : Obligations.ConfigurationFixed := fun _ _ => step_keeps_config

/-- Settles O20, from the parts that each instruction may change. -/
theorem stackAndMemoryWriters : Obligations.StackAndMemoryWriters := by
  intro i s t h
  have hu := (exec_changesOnly h).unchangedBut
  refine ⟨fun hne => ?_, fun ⟨a, ha⟩ => ?_, hu .keys keys_not_mem_writtenParts, exec_keeps_config h,
    hu .schedule schedule_not_mem_writtenParts⟩
  · exact stack_mem_writtenParts.mp (not_imp_comm.mp (hu .stack) hne)
  · exact mem_mem_writtenParts.mp (not_imp_comm.mp (hu .mem) fun hm => ha (hm a))

/-- Settles O21: the writers from the parts of each instruction, and that both of them only raise the flag. -/
theorem displayWriters : Obligations.DisplayWriters := by
  intro i s t h
  have hu := (exec_changesOnly h).unchangedBut
  refine ⟨fun hne => display_mem_writtenParts.mp (not_imp_comm.mp (hu .display) hne), fun hne => ?_⟩
  have hi := drawFlag_mem_writtenParts.mp (not_imp_comm.mp (hu .drawFlag) hne)
  exact ⟨exec_sets_drawFlag h hne hi, hi⟩

/-- Settles O22, from the parts that each instruction may change. -/
theorem addressAndTimerWriters : Obligations.AddressAndTimerWriters := by
  intro i s t h
  have hu := (exec_changesOnly h).unchangedBut
  exact ⟨fun hne => i_mem_writtenParts.mp (not_imp_comm.mp (hu .i) hne),
    fun hne => dt_mem_writtenParts.mp (not_imp_comm.mp (hu .dt) hne),
    fun hne => st_mem_writtenParts.mp (not_imp_comm.mp (hu .st) hne)⟩

/-- Settles O23, by what each shape of instruction leaves in the registers. -/
theorem registerWriters : Obligations.RegisterWriters := by
  intro i s t h
  refine ⟨fun k hne => ?_, exec_leaves_flag h⟩
  by_contra hnone
  obtain ⟨hd, hf⟩ := not_or.mp hnone
  exact hne (exec_keeps_other_registers h (Bool.eq_false_iff.mpr hd) hf)

/-- Settles O47: each transfer is one update after the advance of PC. -/
theorem timerTransfers : Obligations.TimerTransfers := by
  obtain ⟨hread, hwriteDt, hwriteSt⟩ := decode_timer_words
  exact ⟨fun x => ⟨hread x, fun s => ⟨_, rfl, writesV_setV_advance s x s.dt⟩⟩,
    fun x => ⟨hwriteDt x, fun s => ⟨_, rfl, rfl, rfl, ChangesOnly.unchangedBut rfl⟩⟩,
    fun x => ⟨hwriteSt x, fun s => ⟨_, rfl, rfl, rfl, ChangesOnly.unchangedBut rfl⟩⟩⟩

/-- Settles O58: memory lists nothing, so that every byte outside the font is 0x00. -/
theorem resetGivenValues : Obligations.ResetGivenValues := by
  refine ⟨rfl, rfl, by decide, rfl, rfl, fun a ha hout => ?_⟩
  rw [memRead, Nat.mod_eq_of_lt ha]
  exact Memory.unlisted_outside_font hout

end Sys2Proof.Proofs
end

section
/-! PROOF. What FX55 leaves in memory, and the fetch that sees it (20_memory.md R85). -/

namespace Sys2Proof.Machine

variable {s t : State}

/-! ## The bytes of a fetched word -/

/-- Fetch with PC at `p`: the high byte is read first (R131). -/
theorem fetchWord_at_toNat (s : State) (p : Word) :
    (fetchWord { s with pc := p }).toNat = (memRead s p.toNat).toNat * 256 + (memRead s (p.toNat + 1)).toNat :=
  toNat_append_eq _ _

theorem fetchWord_at_high (s : State) (p : Word) :
    (fetchWord { s with pc := p }).toNat / 256 = (memRead s p.toNat).toNat := by
  rw [fetchWord_at_toNat]
  omega

theorem fetchWord_at_low (s : State) (p : Word) :
    (fetchWord { s with pc := p }).toNat % 256 = (memRead s (p.toNat + 1)).toNat := by
  rw [fetchWord_at_toNat]
  omega

/-! ## A 16-bit address beside an address of memory -/

/-- I + k computed in 16 bits is the place of byte k, since 4096 divides 65536. -/
theorem toNat_i_add_mod (s : State) (k : Nat) :
    (s.i + BitVec.ofNat 16 k).toNat % 4096 = effAddr s k % 4096 := by
  rw [BitVec.toNat_add, BitVec.toNat_ofNat, effAddr]
  omega

/-- The place after the one below `a` is that of `a`, at 0 too. -/
theorem toNat_pred_add_one_mod (a : Word) : ((a - 1).toNat + 1) % 4096 = a.toNat % 4096 := by
  rw [BitVec.toNat_sub, show (1 : Word).toNat = 1 from rfl]
  omega

/-! ## FX55 -/

theorem memRead_incrementI (x : Reg) (s : State) (a : Nat) : memRead (incrementI x s) a = memRead s a := by
  rw [incrementI_eq]
  rfl

/-- The bytes that FX55 stores, read at any address of the same place (R72, R267). -/
theorem memRead_of_ldMemVx {x k : Reg} {a : Nat} (h : exec (.ldMemVx x) s = .next t) (hk : k ≤ x)
    (ha : a % 4096 = effAddr s k.val % 4096) : memRead t a = getV s k := by
  obtain rfl := Host.Outcome.next.inj h
  have hstored : memRead (storeRegs (x.val + 1) (advance s)) (effAddr s k.val) = getV s (Fin.ofNat 16 k.val) :=
    memRead_storeRegs_hit x.isLt (Nat.lt_succ_of_le hk)
  rw [memRead_incrementI, ← memRead_mod, ha, memRead_mod, hstored, Fin.ofNat_val_eq_self]

end Sys2Proof.Machine

namespace Sys2Proof.Proofs

open Sys2Proof.Machine

/-- Settles O53: the two bytes of a fetch are reads modulo 4096, of places that FX55 stored to. -/
theorem fetchSeesStore : Obligations.FetchSeesStore := by
  intro x s t h
  refine ⟨fun k hk => ⟨?high, ?low⟩, fun k j hjk hj => ?both⟩
  case high => rw [fetchWord_at_high, memRead_of_ldMemVx h hk (toNat_i_add_mod s k.val)]
  case low =>
    rw [fetchWord_at_low, memRead_of_ldMemVx h hk ((toNat_pred_add_one_mod _).trans (toNat_i_add_mod s k.val))]
  case both =>
    have hkj : k ≤ j := Fin.le_def.mpr (by omega)
    have hbyte := toNat_i_add_mod s k.val
    have hnext : ((s.i + BitVec.ofNat 16 k.val).toNat + 1) % 4096 = effAddr s j.val % 4096 := by
      rw [Nat.add_mod, hbyte, ← Nat.add_mod, hjk, effAddr, effAddr, Nat.add_assoc]
    rw [fetchWord_at_toNat, memRead_of_ldMemVx h (hkj.trans hj) hbyte, memRead_of_ldMemVx h hj hnext]

end Sys2Proof.Proofs
end

section
/-! PROOF. The opcode map row by row (30_encoding.md R101 to R107): no two rows select one word, and every row is the
inverse of the encoder. The statements about decoding follow from these two facts. The assembler of R110 and R111 is a
section of its own. -/

namespace Sys2Proof

/-! ## One row selects a word -/

/-- Two rows whose codes differ in a bit that both masks keep select no word in common. -/
theorem not_selects_both {r q : Row} (h : r.code &&& q.mask ≠ q.code &&& r.mask) (w : Word) :
    ¬(r.selects w = true ∧ q.selects w = true) := by
  simp only [Row.selects, beq_iff_eq]
  rintro ⟨hr, hq⟩
  rw [← hr, ← hq] at h
  exact h (by ac_rfl)

theorem opcodeTable_exclusive :
    opcodeTable.Pairwise fun r q => ∀ w : Word, ¬(r.selects w = true ∧ q.selects w = true) :=
  List.Pairwise.imp not_selects_both (by decide)

/-- The row that the table is searched for stands in it and selects the word. -/
theorem mem_and_selects_of_find {r : Row} {w : Word} (h : opcodeTable.find? (fun q => q.selects w) = some r) :
    r ∈ opcodeTable ∧ r.selects w = true :=
  ⟨List.mem_of_find?_eq_some h, List.find?_some (p := fun q : Row => q.selects w) h⟩

/-- The order of the table plays no part: any row that selects a word decodes it. -/
theorem decode_of_selects {r : Row} {w : Word} (hr : r ∈ opcodeTable) (hw : r.selects w = true) :
    decode w = .ok (r.build (fieldsOf w)) := by
  obtain ⟨before, after, htable⟩ := List.append_of_mem hr
  have hbefore : ∀ q ∈ before, (!q.selects w) = true := fun q hq => by
    have hexcl := opcodeTable_exclusive
    rw [htable, List.pairwise_append] at hexcl
    obtain ⟨-, -, hexcl⟩ := hexcl
    simpa [hw] using hexcl q hq r List.mem_cons_self w
  have hfind : opcodeTable.find? (fun q => q.selects w) = some r :=
    List.find?_eq_some_iff_append.mpr ⟨hw, before, after, htable, hbefore⟩
  rw [decode, hfind]

theorem exists_selects_of_decode {w : Word} {i : Instr} (h : decode w = .ok i) :
    ∃ r ∈ opcodeTable, r.selects w = true ∧ r.build (fieldsOf w) = i := by
  unfold decode at h
  split at h
  · next r hfind =>
    obtain ⟨hr, hw⟩ := mem_and_selects_of_find hfind
    exact ⟨r, hr, hw, Except.ok.inj h⟩
  · cases h

theorem decode_eq_unknown_iff (w : Word) :
    decode w = .error (.unknownOpcode w) ↔ ∀ r ∈ opcodeTable, r.selects w = false := by
  unfold decode
  split
  · next r hr => simpa using ⟨r, mem_and_selects_of_find hr⟩
  · next hnone => simpa using hnone

/-! ## The fields of an encoded word (R101, R102) -/

theorem fieldsOf_encodeA_nnn (c : Nibble) (nnn : Addr) : (fieldsOf (encodeA c nnn)).nnn = nnn := by
  apply BitVec.eq_of_toNat_eq
  rw [fieldsOf_nnn, toNat_encodeA]
  omega

theorem fieldsOf_encodeB_x (c : Nibble) (x : Reg) (nn : Byte) : (fieldsOf (encodeB c x nn)).x = x := by
  apply Fin.ext
  rw [fieldsOf_x, toNat_encodeB]
  omega

theorem fieldsOf_encodeB_nn (c : Nibble) (x : Reg) (nn : Byte) : (fieldsOf (encodeB c x nn)).nn = nn := by
  apply BitVec.eq_of_toNat_eq
  rw [fieldsOf_nn, toNat_encodeB]
  omega

theorem fieldsOf_encodeR_x (c : Nibble) (x y : Reg) (n : Nibble) : (fieldsOf (encodeR c x y n)).x = x := by
  apply Fin.ext
  rw [fieldsOf_x, toNat_encodeR]
  omega

theorem fieldsOf_encodeR_y (c : Nibble) (x y : Reg) (n : Nibble) : (fieldsOf (encodeR c x y n)).y = y := by
  apply Fin.ext
  rw [fieldsOf_y, toNat_encodeR]
  omega

theorem fieldsOf_encodeR_n (c : Nibble) (x y : Reg) (n : Nibble) : (fieldsOf (encodeR c x y n)).n = n := by
  apply BitVec.eq_of_toNat_eq
  rw [fieldsOf_n, toNat_encodeR]
  omega

/-! ## A row and the encoder are inverse to each other, one lemma for each format -/

/-- The row selects exactly the words that the encoder gives back for what the row builds from them, and reads the
operands of what it builds back from the encoder's word. -/
structure Row.Faithful (r : Row) : Prop where
  selects_iff (w : Word) : r.selects w = true ↔ encode (r.build (fieldsOf w)) = w
  build_encode (g : Fields) : r.build (fieldsOf (encode (r.build g))) = r.build g

theorem Row.Faithful.selects_encode {r : Row} (h : r.Faithful) (g : Fields) :
    r.selects (encode (r.build g)) = true := by
  rw [h.selects_iff, h.build_encode]

/-- Format Z: one word, no operand. -/
theorem faithful_word (i : Instr) {code : Word} (henc : encode i = code) :
    (Row.mk code 0xFFFF fun _ => i).Faithful where
  selects_iff w := by
    rw [selects_word, decide_eq_true_eq, henc, BitVec.toNat_inj]
    exact eq_comm
  build_encode _ := rfl

/-- Format A: an address. -/
theorem faithful_address (c : Nibble) (f : Addr → Instr) {code : Word} (hcode : code.toNat = c.toNat * 4096)
    (henc : ∀ nnn, encode (f nnn) = encodeA c nnn) : (Row.mk code 0xF000 fun g => f g.nnn).Faithful where
  selects_iff w := by
    rw [selects_class _ _ _ (by omega), decide_eq_true_eq, henc, ← BitVec.toNat_inj, toNat_encodeA, fieldsOf_nnn]
    omega
  build_encode g := by simp only [henc, fieldsOf_encodeA_nnn]

/-- Format B: a register and a byte. -/
theorem faithful_regByte (c : Nibble) (f : Reg → Byte → Instr) {code : Word} (hcode : code.toNat = c.toNat * 4096)
    (henc : ∀ x nn, encode (f x nn) = encodeB c x nn) : (Row.mk code 0xF000 fun g => f g.x g.nn).Faithful where
  selects_iff w := by
    rw [selects_class _ _ _ (by omega), decide_eq_true_eq, henc, ← BitVec.toNat_inj, toNat_encodeB, fieldsOf_x,
      fieldsOf_nn]
    omega
  build_encode g := by simp only [henc, fieldsOf_encodeB_x, fieldsOf_encodeB_nn]

/-- Format S: a register, with the last byte fixed. -/
theorem faithful_reg (c : Nibble) (nn : Byte) (f : Reg → Instr) {code : Word}
    (hcode : code.toNat = c.toNat * 4096 + nn.toNat) (henc : ∀ x, encode (f x) = encodeB c x nn) :
    (Row.mk code 0xF0FF fun g => f g.x).Faithful where
  selects_iff w := by
    rw [selects_byte _ _ _ (by omega), decide_eq_true_eq, henc, ← BitVec.toNat_inj, toNat_encodeB, fieldsOf_x]
    omega
  build_encode g := by simp only [henc, fieldsOf_encodeB_x]

/-- Format R: two registers, with the last nibble fixed. -/
theorem faithful_regs (c n : Nibble) (f : Reg → Reg → Instr) {code : Word}
    (hcode : code.toNat = c.toNat * 4096 + n.toNat) (henc : ∀ x y, encode (f x y) = encodeR c x y n) :
    (Row.mk code 0xF00F fun g => f g.x g.y).Faithful where
  selects_iff w := by
    rw [selects_nibble _ _ _ (by omega), decide_eq_true_eq, henc, ← BitVec.toNat_inj, toNat_encodeR, fieldsOf_x,
      fieldsOf_y]
    omega
  build_encode g := by simp only [henc, fieldsOf_encodeR_x, fieldsOf_encodeR_y]

/-- Format D: two registers and a nibble. -/
theorem faithful_regsNibble (c : Nibble) (f : Reg → Reg → Nibble → Instr) {code : Word}
    (hcode : code.toNat = c.toNat * 4096) (henc : ∀ x y n, encode (f x y n) = encodeR c x y n) :
    (Row.mk code 0xF000 fun g => f g.x g.y g.n).Faithful where
  selects_iff w := by
    rw [selects_class _ _ _ (by omega), decide_eq_true_eq, henc, ← BitVec.toNat_inj, toNat_encodeR, fieldsOf_x,
      fieldsOf_y, fieldsOf_n]
    omega
  build_encode g := by simp only [henc, fieldsOf_encodeR_x, fieldsOf_encodeR_y, fieldsOf_encodeR_n]

/-! ## The table -/

/-- Every row is faithful: the format of each, in the order of the table. -/
theorem opcodeTable_faithful : ∀ r ∈ opcodeTable, r.Faithful := by
  simp only [opcodeTable, List.cons_append, List.nil_append, List.forall_mem_cons]
  exact ⟨faithful_word .cls rfl, faithful_word .ret rfl,
    faithful_address 0x1 .jp rfl fun _ => rfl,
    faithful_address 0x2 .call rfl fun _ => rfl,
    faithful_regByte 0x3 .seImm rfl fun _ _ => rfl,
    faithful_regByte 0x4 .sneImm rfl fun _ _ => rfl,
    faithful_regs 0x5 0x0 .seReg rfl fun _ _ => rfl,
    faithful_regByte 0x6 .ldImm rfl fun _ _ => rfl,
    faithful_regByte 0x7 .addImm rfl fun _ _ => rfl,
    faithful_regs 0x8 0x0 .ldReg rfl fun _ _ => rfl,
    faithful_regs 0x8 0x1 .or rfl fun _ _ => rfl,
    faithful_regs 0x8 0x2 .and rfl fun _ _ => rfl,
    faithful_regs 0x8 0x3 .xor rfl fun _ _ => rfl,
    faithful_regs 0x8 0x4 .addReg rfl fun _ _ => rfl,
    faithful_regs 0x8 0x5 .sub rfl fun _ _ => rfl,
    faithful_regs 0x8 0x6 .shr rfl fun _ _ => rfl,
    faithful_regs 0x8 0x7 .subn rfl fun _ _ => rfl,
    faithful_regs 0x8 0xE .shl rfl fun _ _ => rfl,
    faithful_regs 0x9 0x0 .sneReg rfl fun _ _ => rfl,
    faithful_address 0xA .ldI rfl fun _ => rfl,
    faithful_address 0xB .jpV0 rfl fun _ => rfl,
    faithful_regByte 0xC .rnd rfl fun _ _ => rfl,
    faithful_regsNibble 0xD .drw rfl fun _ _ _ => rfl,
    faithful_reg 0xE 0x9E .skp rfl fun _ => rfl,
    faithful_reg 0xE 0xA1 .sknp rfl fun _ => rfl,
    faithful_reg 0xF 0x07 .ldVxDt rfl fun _ => rfl,
    faithful_reg 0xF 0x0A .ldVxK rfl fun _ => rfl,
    faithful_reg 0xF 0x15 .ldDtVx rfl fun _ => rfl,
    faithful_reg 0xF 0x18 .ldStVx rfl fun _ => rfl,
    faithful_reg 0xF 0x1E .addIVx rfl fun _ => rfl,
    faithful_reg 0xF 0x29 .ldFVx rfl fun _ => rfl,
    faithful_reg 0xF 0x33 .ldBVx rfl fun _ => rfl,
    faithful_reg 0xF 0x55 .ldMemVx rfl fun _ => rfl,
    faithful_reg 0xF 0x65 .ldVxMem rfl fun _ => rfl, nofun⟩

/-- Fields with the operands of the instruction, and 0 where it has none. -/
def operandFields : Instr → Fields
  | .cls | .ret => ⟨0, 0, 0, 0, 0⟩
  | .jp nnn | .call nnn | .ldI nnn | .jpV0 nnn => ⟨0, 0, 0, 0, nnn⟩
  | .seImm x nn | .sneImm x nn | .ldImm x nn | .addImm x nn | .rnd x nn => ⟨x, 0, 0, nn, 0⟩
  | .seReg x y | .ldReg x y | .or x y | .and x y | .xor x y | .addReg x y | .sub x y | .shr x y | .subn x y | .shl x y
  | .sneReg x y => ⟨x, y, 0, 0, 0⟩
  | .drw x y n => ⟨x, y, n, 0, 0⟩
  | .skp x | .sknp x | .ldVxDt x | .ldVxK x | .ldDtVx x | .ldStVx x | .addIVx x | .ldFVx x | .ldBVx x | .ldMemVx x
  | .ldVxMem x => ⟨x, 0, 0, 0, 0⟩

/-- Every instruction has a row: the table is in the order of the constructors. -/
theorem exists_row_builds (i : Instr) : ∃ r ∈ opcodeTable, r.build (operandFields i) = i := by
  have hrow : (opcodeTable[i.ctorIdx]?).map (fun r => r.build (operandFields i)) = some i := by cases i <;> rfl
  obtain ⟨r, hr, hbuild⟩ := Option.map_eq_some_iff.mp hrow
  exact ⟨r, List.mem_of_getElem? hr, hbuild⟩

/-! ## Illegal words (R107) -/

/-- The last nibbles that R107 lists for class 8 are those of no row of that class. -/
theorem mem_illegal_alu_nibbles_iff : ∀ n < 16,
    n ∈ [0x8, 0x9, 0xA, 0xB, 0xC, 0xD, 0xF] ↔ n ∉ [0x0, 0x1, 0x2, 0x3, 0x4, 0x5, 0x6, 0x7, 0xE] := by
  decide

/-- The illegal words are those that no row selects, class by class: in each class only its own rows are left. -/
theorem no_row_selects_iff (w : Word) : (∀ r ∈ opcodeTable, r.selects w = false) ↔ Claims.Illegal w := by
  have hclass : w.toNat / 4096 < 16 := by have := w.isLt; omega
  have hword : w.toNat / 4096 ≠ 0 → w.toNat ≠ 0x00E0 ∧ w.toNat ≠ 0x00EE := by omega
  simp only [opcodeTable, List.cons_append, List.nil_append, List.forall_mem_cons]
  simp (disch := decide) only [selects_word, selects_class, selects_nibble, selects_byte, decide_eq_false_iff_not]
  rw [Claims.Illegal, mem_illegal_alu_nibbles_iff _ (Nat.mod_lt _ (by decide))]
  interval_cases w.toNat / 4096 <;> simp [← BitVec.toNat_inj, hword]

/-! ## Assembly (R110, R111) -/

/-- Every well-formed line has an instruction or a byte: `asmInstr` has an arm for each pattern of `wellFormed` but the
one for the remaining lines, which is `false`. -/
theorem assemble_isSome_of_wellFormed {l : AsmLine} (h : l.wellFormed = true) : (assemble l).isSome = true := by
  unfold assemble
  rw [if_pos h]
  revert h
  fun_cases AsmLine.wellFormed l
  case case35 => exact nofun
  all_goals exact fun _ => rfl

end Sys2Proof

namespace Sys2Proof.Proofs

/-- Settles O3: of any two rows the codes differ in a bit that both masks keep. -/
theorem rowsMutuallyExclusive : Obligations.RowsMutuallyExclusive := opcodeTable_exclusive

/-- Settles O1: the row that builds the instruction selects its word and reads the operands back. -/
theorem decodeOfEncode : Obligations.DecodeOfEncode := by
  intro i
  obtain ⟨r, hr, hbuild⟩ := exists_row_builds i
  have hfaithful := opcodeTable_faithful r hr
  rw [← hbuild, decode_of_selects hr (hfaithful.selects_encode _), hfaithful.build_encode]

/-- Settles O2: the row that decodes the word is faithful. -/
theorem encodeOfDecode : Obligations.EncodeOfDecode := by
  intro w i h
  obtain ⟨r, hr, hw, rfl⟩ := exists_selects_of_decode h
  exact ((opcodeTable_faithful r hr).selects_iff w).mp hw

/-- Settles O4: the illegal words are those that no row selects, and a row that selects a word decodes it. -/
theorem illegalWordsRefused : Obligations.IllegalWordsRefused := by
  intro w
  refine ⟨(decode_eq_unknown_iff w).trans (no_row_selects_iff w), fun hlegal => ?_⟩
  rw [← no_row_selects_iff] at hlegal
  push Not at hlegal
  obtain ⟨r, hr, hw⟩ := hlegal
  exact ⟨_, decode_of_selects hr (Bool.eq_true_of_not_eq_false hw)⟩

/-- Settles O6: a line that is not well formed fails the assembler's first test, and every other line has bytes. -/
theorem assemblerRefusesIllFormed : Obligations.AssemblerRefusesIllFormed := by
  intro l
  cases hw : l.wellFormed with
  | true => exact assemble_isSome_of_wellFormed hw
  | false => simp [assemble, hw]

/-- Settles O5: eight words, each looked up in the table. -/
theorem sampleWordsDecode : Obligations.SampleWordsDecode := by
  unfold Obligations.SampleWordsDecode
  decide

end Sys2Proof.Proofs
end

section
/-! PROOF. The tick and its outcome (40_execution_cycle.md R130 to R141): every instruction ends in a next state, and in
one of three ways, as `raises` and `waits` say. -/

namespace Sys2Proof.Machine

variable {s t : State} {i : Instr}

/-! ## The three ends of an instruction -/

theorem drawOrWait_answers_next (stall : Bool) (x y : Reg) (n : Nibble) (s : State) :
    ∃ t, drawOrWait stall x y n s = .next t := by
  unfold drawOrWait
  split <;> exact ⟨_, rfl⟩

/-- Every instruction has a next state: waiting and faulting are next states too (R304, log entry 8). -/
theorem exec_answers_next (i : Instr) (s : State) : ∃ t, exec i s = .next t := by
  cases i with
  | call nnn =>
    simp only [exec, execCall]
    split <;> exact ⟨_, rfl⟩
  | skp x =>
    simp only [exec, execSkp]
    split <;> exact ⟨_, rfl⟩
  | sknp x =>
    simp only [exec, execSknp]
    split <;> exact ⟨_, rfl⟩
  | ldVxK x =>
    simp only [exec, execLdVxK]
    split <;> exact ⟨_, rfl⟩
  | drw x y n =>
    simp only [exec, execDrw]
    split <;> exact drawOrWait_answers_next _ x y n _
  | _ => exact ⟨_, rfl⟩

/-- An instruction that raises a fault does nothing but record it, with its own word (R300, log entry 10). -/
theorem exec_of_raises {kind : FaultKind} (hr : raises i s = some kind) : exec i s = raise kind (encode i) s := by
  cases i with
  | call nnn =>
    simp only [raises] at hr
    split at hr
    · next hfull =>
      cases hr
      exact if_pos hfull
    · cases hr
  | skp x =>
    simp only [raises] at hr
    split at hr
    · cases hr
    · next hk =>
      cases hr
      rw [exec, execSkp, hk]
  | sknp x =>
    simp only [raises] at hr
    split at hr
    · cases hr
    · next hk =>
      cases hr
      rw [exec, execSknp, hk]
  | _ => contradiction

/-- Only a raise writes the fault record (R44, R300). -/
theorem exec_keeps_fault (h : exec i s = .next t) (hr : raises i s = none) : t.fault = s.fault := by
  cases i with
  | call nnn =>
    obtain ⟨hfull, -⟩ | ⟨-, rfl⟩ := execCall_cases h
    · simp [raises, hfull] at hr
    · rfl
  | skp x =>
    obtain ⟨k, -, rfl⟩ | ⟨kind, hk, -⟩ := execSkp_cases h
    · rw [skipIf_eq]
      rfl
    · simp [raises, hk] at hr
  | sknp x =>
    obtain ⟨k, -, rfl⟩ | ⟨kind, hk, -⟩ := execSknp_cases h
    · rw [skipIf_eq]
      rfl
    · simp [raises, hk] at hr
  | _ => exact (exec_changesOnly h).unchangedBut .fault (by simp [writtenParts])

/-- An instruction that waits changes at most the count of stall inputs (R137, log entry 6). -/
theorem exec_of_waits (h : exec i s = .next t) (hw : waits i s = true) : t = { s with stalls := t.stalls } := by
  cases i with
  | ldVxK x =>
    obtain ⟨k, hk, -⟩ | ⟨-, rfl⟩ := execLdVxK_cases h
    · simp [waits, hk] at hw
    · rfl
  | drw x y n =>
    obtain ⟨-, rfl⟩ | ⟨hdraws, -⟩ := execDrw_cases h
    · rfl
    · rw [hw] at hdraws
      contradiction
  | _ => contradiction

/-! ## The tick and its outcome, case by case -/

section
variable {r : FaultRecord} {e : DecodeReject} {kind : FaultKind}

theorem tick_halted (hf : s.fault = some r) : tick s = .fault (.halted r) := by
  rw [tick, hf]

theorem tick_undecoded (hf : s.fault = none) (hd : decode (fetchWord s) = .error e) :
    tick s = .next { s with fault := some ⟨.unknownOpcode, fetchWord s, s.pc⟩ } := by
  rw [tick_running hf, hd, raise_eq]

theorem tick_decoded (hf : s.fault = none) (hd : decode (fetchWord s) = .ok i) : tick s = exec i s := by
  rw [tick_running hf, hd]

theorem tickOutcome_halted (hf : s.fault = some r) : tickOutcome s = none := by
  rw [tickOutcome, hf]

theorem tickOutcome_undecoded (hf : s.fault = none) (hd : decode (fetchWord s) = .error e) :
    tickOutcome s = some (.faulted .unknownOpcode (fetchWord s) s.pc) := by
  simp only [tickOutcome, hf, hd]

theorem tickOutcome_raises (hf : s.fault = none) (hd : decode (fetchWord s) = .ok i) (hr : raises i s = some kind) :
    tickOutcome s = some (.faulted kind (encode i) s.pc) := by
  simp only [tickOutcome, hf, hd, hr]

theorem tickOutcome_waits (hf : s.fault = none) (hd : decode (fetchWord s) = .ok i) (hr : raises i s = none)
    (hw : waits i s = true) : tickOutcome s = some .waiting := by
  simp only [tickOutcome, hf, hd, hr, hw, if_true]

theorem tickOutcome_executed (hf : s.fault = none) (hd : decode (fetchWord s) = .ok i) (hr : raises i s = none)
    (hw : waits i s = false) : tickOutcome s = some .executed := by
  simp only [tickOutcome, hf, hd, hr, hw, Bool.false_eq_true, if_false]

end

/-- A running core always has a step (R130). -/
theorem tick_answers_next (hf : s.fault = none) : ∃ t, tick s = .next t := by
  cases hd : decode (fetchWord s) with
  | error e => exact ⟨_, tick_undecoded hf hd⟩
  | ok i =>
    rw [tick_decoded hf hd]
    exact exec_answers_next i s

/-! ## A step that ticks -/

theorem step_unscheduled (h : s.schedule = []) : step s = tick s := by
  rw [step, h]

theorem step_scheduled_tick {rest : List Transaction} (h : s.schedule = .tick :: rest) :
    step s = tick { s with schedule := rest } := by
  rw [step, h]

end Sys2Proof.Machine

namespace Sys2Proof.Proofs

open Sys2Proof.Machine

/-- Settles O11: the tick of a running core ends as `raises` and `waits` say, and a decoded instruction encodes to the
word that was fetched. -/
theorem tickHasOneOutcome : Obligations.TickHasOneOutcome := by
  intro s hf
  cases hd : decode (fetchWord s) with
  | error e =>
    refine ⟨_, _, tick_undecoded hf hd, tickOutcome_undecoded hf hd, nofun, nofun, ?_⟩
    rintro k op pc ⟨⟩
    exact ⟨rfl, rfl, rfl⟩
  | ok i =>
    have htick : tick s = exec i s := tick_decoded hf hd
    cases hr : raises i s with
    | some kind =>
      refine ⟨_, _, htick.trans (exec_of_raises hr), tickOutcome_raises hf hd hr, nofun, nofun, ?_⟩
      rintro k op pc ⟨⟩
      exact ⟨encodeOfDecode _ _ hd, rfl, rfl⟩
    | none =>
      obtain ⟨t, ht⟩ := exec_answers_next i s
      cases hw : waits i s with
      | true =>
        exact ⟨t, _, htick.trans ht, tickOutcome_waits hf hd hr hw, nofun, fun _ => exec_of_waits ht hw, nofun⟩
      | false =>
        have hfault : t.fault = none := (exec_keeps_fault ht hr).trans hf
        exact ⟨t, _, htick.trans ht, tickOutcome_executed hf hd hr hw, fun _ => hfault, nofun, nofun⟩

/-- Settles O7, from the two bytes of a fetch at any PC, each read at its address modulo 4096. -/
theorem fetchIsBigEndian : Obligations.FetchIsBigEndian := fun s => fetchWord_at_toNat s s.pc

/-- Settles O8: taking a tick off the schedule changes neither the fault record nor the word fetched. -/
theorem stepRunsDecoded : Obligations.StepRunsDecoded := by
  intro s i hf hd
  refine ⟨fun hs => ?_, fun rest hs => ?_⟩
  · exact (step_unscheduled hs).trans (tick_decoded hf hd)
  · exact (step_scheduled_tick hs).trans (tick_decoded (s := { s with schedule := rest }) hf hd)

/-- Settles O9, by the case of the tick and of its outcome where nothing decodes. -/
theorem unknownOpcodeRecorded : Obligations.UnknownOpcodeRecorded :=
  fun _ _ hf hd => ⟨tick_undecoded hf hd, tickOutcome_undecoded hf hd⟩

/-- Settles O10: a running core always has a next state, and a halted one none. -/
theorem tickOnlyWhenRunning : Obligations.TickOnlyWhenRunning := by
  intro s
  refine ⟨⟨?running, tick_answers_next⟩, fun r hr => ⟨tick_halted hr, tickOutcome_halted hr⟩⟩
  case running =>
    rintro ⟨t, ht⟩
    obtain ⟨hf, -⟩ := tick_cases ht
    exact hf

end Sys2Proof.Proofs
end

section
/-! PROOF. The register arithmetic of class 8 (41_register_arithmetic.md R153 to R163): the flags and the results as
numbers, and the two common ends of an operation. -/

namespace Sys2Proof.Machine

open Sys2Proof.Claims

/-! ## The word of an instruction of format R -/

/-- The word of a row of format R is the encoder's (R101, R102). -/
theorem wordR_eq_encodeR (c n : Nibble) (x y : Reg) : wordR (c.toNat * 4096 + n.toNat) x y = encodeR c x y n := by
  apply BitVec.eq_of_toNat_eq
  rw [wordR, BitVec.toNat_ofNat, toNat_encodeR]
  omega

/-- An instruction of class 8 is what its row's word decodes to. -/
theorem decode_wordR_class8 {i : Instr} {x y : Reg} (n : Nibble) (henc : encode i = encodeR 0x8 x y n) :
    decode (wordR (0x8000 + n.toNat) x y) = .ok i := by
  have hword : wordR (0x8000 + n.toNat) x y = encode i := (wordR_eq_encodeR 0x8 n x y).trans henc.symm
  rw [hword]
  exact Proofs.decodeOfEncode i

/-! ## The two ends of an operation -/

theorem finishAlu_writesVThenFlag (s : State) (x : Reg) (r f : Byte) :
    ∃ t, finishAlu s x r f = .next t ∧ WritesVThenFlag s t x r f :=
  ⟨_, rfl, getV_finishAlu rfl, rfl, ChangesOnly.unchangedBut rfl⟩

/-- Under vf_reset a bitwise operation ends like a flag-setting one whose flag is 0. -/
theorem finishLogic_of_vfReset {s : State} (hq : s.config.vfReset = true) (x : Reg) (r : Byte) :
    finishLogic s x r = finishAlu s x r 0 := by
  simp [finishLogic, finishAlu, applyVfReset, hq]

theorem finishLogic_of_not_vfReset {s : State} (hq : s.config.vfReset = false) (x : Reg) (r : Byte) :
    finishLogic s x r = complete (setV (advance s) x r) := by
  simp [finishLogic, applyVfReset, hq]

theorem finishLogic_writes (s : State) (x : Reg) (r : Byte) :
    ∃ t, finishLogic s x r = .next t ∧ (s.config.vfReset = true → WritesVThenFlag s t x r 0) ∧
      (s.config.vfReset = false → WritesV s t x r) := by
  cases hq : s.config.vfReset with
  | true =>
    rw [finishLogic_of_vfReset hq]
    obtain ⟨t, ht, hwrites⟩ := finishAlu_writesVThenFlag s x r 0
    exact ⟨t, ht, fun _ => hwrites, nofun⟩
  | false =>
    rw [finishLogic_of_not_vfReset hq]
    exact ⟨_, rfl, nofun, fun _ => writesV_setV_advance s x r⟩

/-! ## The two rules, from the encoding of an instruction and the end that it comes to -/

theorem aluRule_of_finishAlu {ins : Reg → Reg → Instr} {result flag : State → Reg → Reg → Byte} (n : Nibble)
    (henc : ∀ x y, encode (ins x y) = encodeR 0x8 x y n)
    (hexec : ∀ x y s, exec (ins x y) s = finishAlu s x (result s x y) (flag s x y)) :
    AluRule (0x8000 + n.toNat) ins result flag := by
  refine fun x y => ⟨decode_wordR_class8 n (henc x y), fun s => ?_⟩
  rw [hexec]
  exact finishAlu_writesVThenFlag s x _ _

theorem bitwiseRule_of_finishLogic {ins : Reg → Reg → Instr} {f : Byte → Byte → Byte} (n : Nibble)
    (henc : ∀ x y, encode (ins x y) = encodeR 0x8 x y n)
    (hexec : ∀ x y s, exec (ins x y) s = finishLogic s x (f (getV s x) (getV s y))) :
    BitwiseRule (0x8000 + n.toNat) ins f := by
  refine fun x y => ⟨decode_wordR_class8 n (henc x y), fun s => ?_⟩
  rw [hexec]
  exact finishLogic_writes s x _

/-! ## Results and flags as numbers -/

theorem flagByte_decide (p : Prop) [Decidable p] : flagByte (decide p) = if p then 1 else 0 := by
  simp [flagByte]

/-- A byte is made from a number modulo 256 (R156). -/
theorem ofNat_mod_256 (n : Nat) : BitVec.ofNat 8 (n % 256) = BitVec.ofNat 8 n :=
  BitVec.eq_of_toNat_eq (Nat.mod_mod n 256)

/-- A difference modulo 256, computed without a negative number (R157, R159). -/
theorem ofInt_sub_eq (a b : Byte) :
    BitVec.ofInt 8 (a.toNat - b.toNat) = BitVec.ofNat 8 ((256 + a.toNat - b.toNat) % 256) := by
  apply BitVec.eq_of_toNat_eq
  rw [BitVec.toNat_ofInt, BitVec.toNat_ofNat]
  omega

theorem ushiftRight_one_eq (b : Byte) : b >>> 1 = BitVec.ofNat 8 (b.toNat / 2) := by
  apply BitVec.eq_of_toNat_eq
  rw [BitVec.toNat_ushiftRight, BitVec.toNat_ofNat, Nat.shiftRight_eq_div_pow]
  omega

theorem shiftLeft_one_eq (b : Byte) : b <<< 1 = BitVec.ofNat 8 (b.toNat * 2 % 256) := by
  apply BitVec.eq_of_toNat_eq
  rw [BitVec.toNat_shiftLeft, BitVec.toNat_ofNat, Nat.shiftLeft_eq]
  omega

theorem lowBitFlag_eq (b : Byte) : lowBitFlag b = if b.toNat % 2 = 1 then 1 else 0 := by
  have hlow : (lowBitFlag b).toNat = b.toNat % 2 := Nat.and_one_is_mod _
  apply BitVec.eq_of_toNat_eq
  rw [hlow]
  split
  · next hodd => exact hodd
  · next heven => exact Nat.mod_two_ne_one.mp heven

theorem highBitFlag_eq (b : Byte) : highBitFlag b = if b.toNat ≥ 128 then 1 else 0 := by
  have hhigh : highBitFlag b = lowBitFlag (b >>> 7) := rfl
  have hshift : (b >>> 7).toNat = b.toNat / 128 := Nat.shiftRight_eq_div_pow _ _
  rw [hhigh, lowBitFlag_eq, hshift]
  exact if_congr (by omega) rfl rfl

/-! ## What each flag-setting operation comes to -/

theorem exec_addReg (x y : Reg) (s : State) : exec (.addReg x y) s = finishAlu s x
    (BitVec.ofNat 8 (((getV s x).toNat + (getV s y).toNat) % 256))
    (if (getV s x).toNat + (getV s y).toNat > 255 then 1 else 0) := by
  rw [exec, execAddReg, carryFlag, flagByte_decide, ofNat_mod_256]

theorem exec_sub (x y : Reg) (s : State) : exec (.sub x y) s = finishAlu s x
    (BitVec.ofNat 8 ((256 + (getV s x).toNat - (getV s y).toNat) % 256))
    (if (getV s x).toNat ≥ (getV s y).toNat then 1 else 0) := by
  rw [exec, execSub, noBorrowFlag, flagByte_decide, ofInt_sub_eq]

theorem exec_subn (x y : Reg) (s : State) : exec (.subn x y) s = finishAlu s x
    (BitVec.ofNat 8 ((256 + (getV s y).toNat - (getV s x).toNat) % 256))
    (if (getV s y).toNat ≥ (getV s x).toNat then 1 else 0) := by
  rw [exec, execSubn, noBorrowFlag, flagByte_decide, ofInt_sub_eq]

theorem shiftSource_eq (s : State) (x y : Reg) : shiftSource s x y = shiftOperand s x y := rfl

theorem exec_shr (x y : Reg) (s : State) : exec (.shr x y) s = finishAlu s x
    (BitVec.ofNat 8 ((shiftOperand s x y).toNat / 2))
    (if (shiftOperand s x y).toNat % 2 = 1 then 1 else 0) := by
  rw [exec, execShr, shiftSource_eq, ushiftRight_one_eq, lowBitFlag_eq]

theorem exec_shl (x y : Reg) (s : State) : exec (.shl x y) s = finishAlu s x
    (BitVec.ofNat 8 ((shiftOperand s x y).toNat * 2 % 256))
    (if (shiftOperand s x y).toNat ≥ 128 then 1 else 0) := by
  rw [exec, execShl, shiftSource_eq, shiftLeft_one_eq, highBitFlag_eq]

end Sys2Proof.Machine

namespace Sys2Proof.Proofs

open Sys2Proof.Machine

/-- Settles O27: the three operations come to one end, which clears the flag last under vf_reset. -/
theorem bitwiseOperations : Obligations.BitwiseOperations :=
  ⟨bitwiseRule_of_finishLogic 0x1 (fun _ _ => rfl) fun _ _ _ => rfl,
    bitwiseRule_of_finishLogic 0x2 (fun _ _ => rfl) fun _ _ _ => rfl,
    bitwiseRule_of_finishLogic 0x3 (fun _ _ => rfl) fun _ _ _ => rfl⟩

/-- Settles O28: an addition ends by writing the sum and then the carry. -/
theorem addWithCarry : Obligations.AddWithCarry := aluRule_of_finishAlu 0x4 (fun _ _ => rfl) exec_addReg

/-- Settles O29: a subtraction ends by writing the difference and then the flag for no borrow. -/
theorem subtract : Obligations.Subtract := aluRule_of_finishAlu 0x5 (fun _ _ => rfl) exec_sub

/-- Settles O30: as O29 with the operands exchanged. -/
theorem subtractReversed : Obligations.SubtractReversed := aluRule_of_finishAlu 0x7 (fun _ _ => rfl) exec_subn

/-- Settles O31: a shift right ends by writing half the operand and then its lowest bit. -/
theorem shiftRight : Obligations.ShiftRight := aluRule_of_finishAlu 0x6 (fun _ _ => rfl) exec_shr

/-- Settles O32: a shift left ends by writing twice the operand and then its highest bit. -/
theorem shiftLeft : Obligations.ShiftLeft := aluRule_of_finishAlu 0xE (fun _ _ => rfl) exec_shl

end Sys2Proof.Proofs
end

section
/-! PROOF. Control flow, skips and random (42_control_flow.md R191 to R203): each operand's word, what a skip leaves in
PC, and the key index; the statements are assembled from these. -/

namespace Sys2Proof.Machine

open Sys2Proof.Claims

variable {s : State} {i : Instr}

/-! ## The words of formats A, B, R and S -/

/-- The word of a row of format A is the encoder's (R101, R102). -/
theorem wordA_eq_encodeA (c : Nibble) (nnn : Addr) : wordA (c.toNat * 4096) nnn = encodeA c nnn := by
  apply BitVec.eq_of_toNat_eq
  rw [wordA, BitVec.toNat_ofNat, toNat_encodeA]
  omega

/-- The word of a row of format B is the encoder's (R101, R102). -/
theorem wordB_eq_encodeB (c : Nibble) (x : Reg) (nn : Byte) : wordB (c.toNat * 4096) x nn = encodeB c x nn := by
  apply BitVec.eq_of_toNat_eq
  rw [wordB, BitVec.toNat_ofNat, toNat_encodeB]
  omega

/-- The word of a row of format S is the encoder's, with the row's last byte (R101, R102). -/
theorem wordS_eq_encodeB (c : Nibble) (x : Reg) (nn : Byte) :
    wordS (c.toNat * 4096 + nn.toNat) x = encodeB c x nn := by
  apply BitVec.eq_of_toNat_eq
  rw [wordS, BitVec.toNat_ofNat, toNat_encodeB]
  omega

/-- A word that is an instruction's encoding decodes to it. -/
theorem decode_of_eq_encode {w : Word} (h : w = encode i) : decode w = .ok i :=
  h ▸ Proofs.decodeOfEncode i

/-! ## Operands in PC -/

theorem toNat_zext (nnn : Addr) : (zext nnn).toNat = nnn.toNat :=
  BitVec.toNat_setWidth_of_le (by decide)

theorem toNat_zextByte (b : Byte) : (zextByte b).toNat = b.toNat :=
  BitVec.toNat_setWidth_of_le (by decide)

/-- An indexed target never exceeds 16 bits (R200). -/
theorem toNat_zextByte_add_zext (b : Byte) (nnn : Addr) : (zextByte b + zext nnn).toNat = b.toNat + nnn.toNat := by
  rw [BitVec.toNat_add, toNat_zextByte, toNat_zext]
  omega

/-! ## Skips -/

/-- The skip adds to the advance (R202). -/
theorem skipIf_advance_pc (b : Bool) (s : State) :
    (skipIf b (advance s)).pc = if b = true then s.pc + 4 else s.pc + 2 := by
  rw [skipIf_eq]
  cases b with
  | false => rfl
  | true => exact BitVec.add_assoc s.pc 2 2

/-- An instruction that ends in a skip skips when the condition that the skip tests holds. -/
theorem skipsWhen_of_exec {b : Bool} {c : Prop} (hexec : exec i s = complete (skipIf b (advance s)))
    (hb : b = true ↔ c) : SkipsWhen i s c :=
  ⟨_, hexec, fun hc => (skipIf_advance_pc b s).trans (if_pos (hb.mpr hc)),
    fun hc => (skipIf_advance_pc b s).trans (if_neg (mt hb.mp hc)), (skipIf_changesOnly b s).unchangedBut⟩

theorem decide_eq_iff_toNat_eq (a b : Byte) : decide (a = b) = true ↔ a.toNat = b.toNat := by
  rw [decide_eq_true_iff, BitVec.toNat_inj]

theorem decide_ne_iff_toNat_ne (a b : Byte) : decide (a ≠ b) = true ↔ a.toNat ≠ b.toNat := by
  rw [decide_eq_true_iff, ne_eq, ne_eq, BitVec.toNat_inj]

/-! ## Key skips -/

/-- A key index below 16, or any under the policy mask, names its key (R203). -/
theorem keyIndex_eq_lowKey {c : Config} {b : Byte} (h : b.toNat < 16 ∨ c.keyIndexPolicy = .mask) :
    keyIndex c b = .ok (lowKey b) := by
  obtain hsmall | hmask := h
  · rw [keyIndex_small hsmall]
    exact congrArg Except.ok (Fin.ext (Nat.mod_eq_of_lt hsmall).symm)
  · exact keyIndex_mask hmask b

theorem held_iff (k : KeyState) : k.held = true ↔ k = .pressed ∨ k = .down := by
  cases k <;> decide

theorem not_held_iff (k : KeyState) : (!k.held) = true ↔ k = .none ∨ k = .released := by
  cases k <;> decide

/-- The rule of a key skip, from its encoding and all that it can do: its key index either names a key or faults, never
both. -/
theorem keySkipRule_of_cases {ins : Reg → Instr} {skips : KeyState → Prop} (nn : Byte) (test : KeyState → Bool)
    (henc : ∀ x, encode (ins x) = encodeB 0xE x nn) (htest : ∀ k, test k = true ↔ skips k)
    (hcases : ∀ {x s t}, exec (ins x) s = .next t →
      (∃ k, keyIndex s.config (getV s x) = .ok k ∧ t = skipIf (test (keyAt s k)) (advance s)) ∨
        ∃ kind, keyIndex s.config (getV s x) = .error kind ∧
          t = { s with fault := some ⟨kind, encode (ins x), s.pc⟩ }) :
    KeySkipRule (0xE000 + nn.toNat) ins skips := by
  intro x
  have hword : wordS (0xE000 + nn.toNat) x = encode (ins x) := (wordS_eq_encodeB 0xE x nn).trans (henc x).symm
  refine ⟨decode_of_eq_encode hword, fun s => ?_⟩
  obtain ⟨t, ht⟩ := exec_answers_next (ins x) s
  refine ⟨fun hkey => ?named, fun ⟨hhigh, hpolicy⟩ => ?faults⟩
  case named =>
    have hnamed := keyIndex_eq_lowKey hkey
    obtain ⟨k, hk, rfl⟩ | ⟨kind, hk, -⟩ := hcases ht <;> rw [hnamed] at hk
    · cases hk
      exact skipsWhen_of_exec ht (htest _)
    · cases hk
  case faults =>
    have hfault := keyIndex_fault hpolicy hhigh
    obtain ⟨k, hk, -⟩ | ⟨kind, hk, rfl⟩ := hcases ht <;> rw [hfault] at hk
    · cases hk
    · cases hk
      rw [ht, hword]

/-! ## Calls -/

theorem exec_call_full {nnn : Addr} (h : s.config.stackLimit = some s.stack.length) :
    exec (.call nnn) s = .next { s with fault := some ⟨.stackOverflow, encode (.call nnn), s.pc⟩ } :=
  if_pos ((stackFull_iff s).mpr h)

theorem exec_call_below_cap {nnn : Addr} (h : s.config.stackLimit ≠ some s.stack.length) :
    exec (.call nnn) s = .next { s with pc := zext nnn, stack := s.stack ++ [s.pc + 2] } :=
  if_neg (mt (stackFull_iff s).mp h)

/-! ## Returns -/

theorem exec_ret_empty (h : s.stack = []) : exec .ret s = .next (advance s) :=
  congrArg Host.Outcome.next (popToPc_empty (s := advance s) h)

theorem exec_ret_top {rest : List Word} {a : Word} (h : s.stack = rest ++ [a]) :
    exec .ret s = .next { s with stack := rest, pc := a } :=
  congrArg Host.Outcome.next (popToPc_top (s := advance s) h)

end Sys2Proof.Machine

namespace Sys2Proof.Proofs

open Sys2Proof.Machine

/-- Settles O34: the advance of PC is overwritten by the target. -/
theorem jumpAbsolute : Obligations.JumpAbsolute := fun nnn =>
  ⟨decode_of_eq_encode (wordA_eq_encodeA 0x1 nnn), fun _ =>
    ⟨_, rfl, toNat_zext nnn, ChangesOnly.unchangedBut rfl⟩⟩

/-- Settles O35, by the two ends of a call. -/
theorem callPushes : Obligations.CallPushes := by
  intro nnn
  have hword : Claims.wordA 0x2000 nnn = encode (.call nnn) := wordA_eq_encodeA 0x2 nnn
  refine ⟨decode_of_eq_encode hword, fun s => ⟨fun hbelow => ?pushes, fun hfull => ?overflows⟩⟩
  case pushes => exact ⟨_, exec_call_below_cap hbelow, rfl, toNat_zext nnn, ChangesOnly.unchangedBut rfl⟩
  case overflows => rw [exec_call_full hfull, hword]

/-- Settles O36: each instruction ends in a skip that tests its comparison. -/
theorem comparingSkips : Obligations.ComparingSkips :=
  ⟨fun x nn => ⟨decode_of_eq_encode (wordB_eq_encodeB 0x3 x nn), fun _ =>
      skipsWhen_of_exec rfl (decide_eq_iff_toNat_eq _ _)⟩,
    fun x nn => ⟨decode_of_eq_encode (wordB_eq_encodeB 0x4 x nn), fun _ =>
      skipsWhen_of_exec rfl (decide_ne_iff_toNat_ne _ _)⟩,
    fun x y => ⟨decode_of_eq_encode (wordR_eq_encodeR 0x5 0x0 x y), fun _ =>
      skipsWhen_of_exec rfl (decide_eq_iff_toNat_eq _ _)⟩,
    fun x y => ⟨decode_of_eq_encode (wordR_eq_encodeR 0x9 0x0 x y), fun _ =>
      skipsWhen_of_exec rfl (decide_ne_iff_toNat_ne _ _)⟩⟩

/-- Settles O37: the two key skips differ in their last byte and in what they test of the key. -/
theorem keySkips : Obligations.KeySkips :=
  ⟨keySkipRule_of_cases 0x9E KeyState.held (fun _ => rfl) held_iff execSkp_cases,
    keySkipRule_of_cases 0xA1 (fun k => !k.held) (fun _ => rfl) not_held_iff execSknp_cases⟩

/-- Settles O38: the 16-bit sum of a byte and an address is exact. -/
theorem jumpIndexed : Obligations.JumpIndexed := fun nnn =>
  ⟨decode_of_eq_encode (wordA_eq_encodeA 0xB nnn), fun s =>
    ⟨_, rfl, toNat_zextByte_add_zext (getV s 0) nnn, ChangesOnly.unchangedBut rfl⟩⟩

/-- Settles O39: for any draw one register is written, and the instruction only counts its draw besides. -/
theorem randomUnderMask : Obligations.RandomUnderMask := fun x nn =>
  ⟨decode_of_eq_encode (wordB_eq_encodeB 0xC x nn), fun r s => ⟨_, rfl, writesV_setV_advance s x (r &&& nn)⟩,
    fun s => ⟨_, rfl, fun k => getV_setV (advance s) x k _, rfl, rfl, ChangesOnly.unchangedBut rfl⟩⟩

/-- Settles O33, by the two ends of a return. -/
theorem returnPops : Obligations.ReturnPops :=
  ⟨decode_of_eq_encode rfl, fun _ =>
    ⟨fun hempty => ⟨_, exec_ret_empty hempty, rfl, ChangesOnly.unchangedBut rfl⟩,
      fun _ _ htop => ⟨_, exec_ret_top htop, rfl, rfl, ChangesOnly.unchangedBut rfl⟩⟩⟩

end Sys2Proof.Proofs
end

section
/-! PROOF. The draw of DXYN (43_display.md R231 to R234): what one bit, one row and the whole sprite do to a pixel and
to the collision, and the end of the instruction. -/

namespace Sys2Proof.Machine

/-! ## Where a sprite bit lands -/

/-- The column of the grid that column c of the sprite lands on (R231). -/
abbrev landX (s : State) (x : Reg) (c : Nat) : Nat := ((getV s x).toNat + c) % 64

/-- The row of the grid that row r of the sprite lands on (R231). -/
abbrev landY (s : State) (y : Reg) (r : Nat) : Nat := ((getV s y).toNat + r) % s.config.displayH

/-- The mask of column c, 0x80 shifted right, selects bit c of the row, most significant first (R231). -/
theorem spriteBit_eq_getMsbD (row : Byte) (c : Nat) : spriteBit row c = row.getMsbD c := by
  unfold spriteBit
  by_cases hc : c < 8
  · have hmask : (0x80 : Byte) >>> c = BitVec.twoPow 8 (7 - c) := by
      revert c; decide
    have hne : BitVec.twoPow 8 (7 - c) ≠ 0#8 := by
      revert c; decide
    rw [hmask, BitVec.and_twoPow, BitVec.getMsbD_eq_getLsbD, decide_eq_true hc]
    cases row.getLsbD (7 - c) <;> simp [hne]
  · have hmask : (0x80 : Byte) >>> c = 0#8 := BitVec.ushiftRight_eq_zero (by omega)
    rw [hmask, BitVec.getMsbD_eq_getLsbD, decide_eq_false hc]
    simp

variable {s t : State} {x y : Reg} {v : Canvas} {r c : Nat}

/-- The eight columns of a sprite land on different columns of the grid. -/
theorem landX_inj {c' : Nat} (hc : c < 8) (hc' : c' < 8) (h : landX s x c' = landX s x c) : c' = c := by
  unfold landX at h
  omega

/-- On a display of at least 16 rows the rows of a sprite land on different rows of the grid. -/
theorem landY_inj {r' : Nat} (hH : 16 ≤ s.config.displayH) (hr : r < 16) (hr' : r' < 16)
    (h : landY s y r' = landY s y r) : r' = r := by
  have hmod : r' % s.config.displayH = r % s.config.displayH := Nat.ModEq.add_left_cancel' _ h
  rwa [Nat.mod_eq_of_lt (by omega), Nat.mod_eq_of_lt (by omega)] at hmod

/-! ## How many bits of a row land on a pixel -/

/-- How many bits of the first `k` columns of row r land on the pixel (px, py). -/
def rowTouches (s : State) (x y : Reg) (r k px py : Nat) : Nat :=
  (List.range k).countP fun c => spriteLands s x y r c px py

/-- The touches of a sprite are those of its rows. -/
theorem spriteTouches_succ (h px py : Nat) :
    spriteTouches s x y (h + 1) px py = spriteTouches s x y h px py + rowTouches s x y h 8 px py := by
  simp [spriteTouches, rowTouches, List.range_succ]

theorem rowTouches_succ (k px py : Nat) :
    rowTouches s x y r (k + 1) px py =
      rowTouches s x y r k px py + if spriteLands s x y r k px py = true then 1 else 0 := by
  simp [rowTouches, List.range_succ, List.countP_append]

/-- In its own row, only a drawn bit itself lands where it lands. -/
theorem rowTouches_own_row {k : Nat} (hk : k ≤ 8) (hc : c < 8) (hd : spriteDrawn s x y r c = true) :
    rowTouches s x y r k (landX s x c) (landY s y r) = if c < k then 1 else 0 := by
  rw [← List.count_range, List.count]
  refine List.countP_congr fun c' hc' => ?_
  have hlt := List.mem_range.mp hc'
  have hland : landX s x c' = landX s x c ↔ c' = c := ⟨landX_inj hc (by omega), fun h => by rw [h]⟩
  simp only [spriteLands, Bool.and_eq_true, decide_eq_true_eq, beq_iff_eq, and_true, hland]
  exact ⟨And.right, fun h => ⟨h ▸ hd, h⟩⟩

/-- No bit of another row lands where a drawn bit lands, if the display has at least 16 rows. -/
theorem rowTouches_other_row {r' : Nat} (hH : 16 ≤ s.config.displayH) (hr : r < 16) (hr' : r' < 16) (hne : r' ≠ r)
    (k : Nat) : rowTouches s x y r' k (landX s x c) (landY s y r) = 0 := by
  refine List.countP_eq_zero.mpr fun c' _ hlands => hne ?_
  simp only [spriteLands, Bool.and_eq_true, decide_eq_true_eq] at hlands
  exact landY_inj hH hr hr' hlands.2.2

/-- On a display of at least 16 rows a pixel under a drawn bit is touched once, when that bit's row is drawn. -/
theorem spriteTouches_under_drawn (hH : 16 ≤ s.config.displayH) (hr : r < 16) (hc : c < 8)
    (hd : spriteDrawn s x y r c = true) {h : Nat} (hh : h ≤ 16) :
    spriteTouches s x y h (landX s x c) (landY s y r) = if r < h then 1 else 0 := by
  induction h with
  | zero => rfl
  | succ h ih =>
    rw [spriteTouches_succ, ih (by omega)]
    by_cases hrow : h = r
    · subst hrow
      rw [rowTouches_own_row (le_refl 8) hc hd]
      simp [hc]
    · rw [rowTouches_other_row hH hr (by omega) hrow]
      split <;> split <;> omega

/-! ## What a bit, a row and a sprite do -/

theorem decide_odd_add (a b : Nat) : decide ((a + b) % 2 = 1) = (decide (a % 2 = 1) ^^ decide (b % 2 = 1)) := by
  grind

theorem decide_odd_ite (b : Bool) : decide ((if b = true then 1 else 0) % 2 = 1) = b := by
  cases b <;> rfl

/-- Row r of the sprite, drawn as far as column `k`. -/
abbrev drawRow (s : State) (x y : Reg) (r k : Nat) (v : Canvas) : Canvas :=
  drawCols s.config (getV s x).toNat (getV s y).toNat (memRead s (effAddr s r)) r k v

/-- A bit that is drawn plots the pixel that it lands on, and no other bit does anything (R231). -/
theorem drawRow_succ (k : Nat) :
    drawRow s x y r (k + 1) v =
      if spriteDrawn s x y r k = true then plotPixel (landX s x k) (landY s y r) (drawRow s x y r k v)
      else drawRow s x y r k v := by
  rw [drawRow, drawCols, drawBit, spriteBit_eq_getMsbD]
  rfl

section
variable (hH : 1 ≤ s.config.displayH) (hv : v.grid.length = s.config.displayH)
include hH hv

/-- Plotting the pixel that a bit lands on flips that pixel: it is in the grid. -/
theorem pixel_plotPixel_land (px py : Nat) :
    (plotPixel (landX s x c) (landY s y r) v).grid.pixel px py =
      (v.grid.pixel px py ^^ (decide (landX s x c = px) && decide (landY s y r = py))) := by
  have hx : landX s x c < displayW := Nat.mod_lt _ (by decide)
  have hy : landY s y r < v.grid.length := hv ▸ Nat.mod_lt _ hH
  rw [plotPixel, Display.pixel_setPixel]
  by_cases hland : landX s x c = px ∧ landY s y r = py
  · obtain ⟨rfl, rfl⟩ := hland
    simp [hx, hy]
  · rw [if_neg fun h => hland ⟨h.1.symm, h.2.1.symm⟩, ← Bool.decide_and, decide_eq_false hland, Bool.xor_false]

/-- Drawing a row flips each pixel as often as a bit lands on it. -/
theorem pixel_drawRow (k px py : Nat) :
    (drawRow s x y r k v).grid.pixel px py =
      (v.grid.pixel px py ^^ decide (rowTouches s x y r k px py % 2 = 1)) := by
  induction k with
  | zero => exact (Bool.xor_false _).symm
  | succ k ih =>
    rw [drawRow_succ, rowTouches_succ, decide_odd_add, decide_odd_ite, ← Bool.xor_assoc, ← ih, spriteLands]
    cases spriteDrawn s x y r k with
    | false => simp
    | true => rw [if_pos rfl, pixel_plotPixel_land hH ((drawCols_length ..).trans hv), Bool.true_and]

/-- Drawing a sprite flips each pixel as often as a bit lands on it (R234). -/
theorem pixel_drawRows (h px py : Nat) :
    (drawRows s (getV s x).toNat (getV s y).toNat h v).grid.pixel px py =
      (v.grid.pixel px py ^^ decide (spriteTouches s x y h px py % 2 = 1)) := by
  induction h with
  | zero => exact (Bool.xor_false _).symm
  | succ h ih =>
    rw [drawRows, pixel_drawRow hH ((drawRows_length ..).trans hv), ih, spriteTouches_succ, decide_odd_add,
      Bool.xor_assoc]

/-- A row collides when one of its drawn bits lands on a pixel that was on before the row: no other bit of the row
lands there. -/
theorem hit_drawRow {k : Nat} (hk : k ≤ 8) :
    (drawRow s x y r k v).hit = true ↔
      v.hit = true ∨ ∃ c < k, spriteDrawn s x y r c = true ∧ v.grid.pixel (landX s x c) (landY s y r) = true := by
  induction k with
  | zero => simp [drawRow, drawCols]
  | succ k ih =>
    rw [Nat.exists_lt_succ_right, ← or_assoc, ← ih (by omega), drawRow_succ]
    cases hd : spriteDrawn s x y r k with
    | false => simp
    | true =>
      have hbefore : (drawRow s x y r k v).grid.pixel (landX s x k) (landY s y r) =
          v.grid.pixel (landX s x k) (landY s y r) := by
        rw [pixel_drawRow hH hv, rowTouches_own_row (by omega) hk hd]
        simp
      simp only [plotPixel, if_true, hbefore, Bool.or_eq_true, true_and]

/-- A sprite collides when one of its drawn bits lands on a pixel that was on after the rows above it (R231). -/
theorem hit_drawRows (h : Nat) :
    (drawRows s (getV s x).toNat (getV s y).toNat h v).hit = true ↔
      v.hit = true ∨ ∃ r < h, ∃ c < 8, spriteDrawn s x y r c = true ∧
        (v.grid.pixel (landX s x c) (landY s y r) ^^
          decide (spriteTouches s x y r (landX s x c) (landY s y r) % 2 = 1)) = true := by
  induction h with
  | zero => simp [drawRows]
  | succ h ih =>
    rw [Nat.exists_lt_succ_right, ← or_assoc, ← ih, drawRows,
      hit_drawRow hH ((drawRows_length ..).trans hv) (le_refl 8)]
    simp only [pixel_drawRows hH hv]

end

section
variable (n : Nibble) (hH : 1 ≤ s.config.displayH) (hfits : s.displayFits)
include hH hfits

theorem pixel_drawn (px py : Nat) :
    (drawn x y n s).display.pixel px py =
      (s.display.pixel px py ^^ decide (spriteTouches s x y n.toNat px py % 2 = 1)) :=
  pixel_drawRows (v := ⟨s.display, false⟩) hH hfits n.toNat px py

theorem hit_drawSprite :
    (drawSprite s x y n).hit = true ↔
      ∃ r c, r < n.toNat ∧ c < 8 ∧ spriteDrawn s x y r c = true ∧
        (s.display.pixel (landX s x c) (landY s y r) ^^
          decide (spriteTouches s x y r (landX s x c) (landY s y r) % 2 = 1)) = true := by
  rw [drawSprite, hit_drawRows (v := ⟨s.display, false⟩) hH hfits]
  simp only [Bool.false_eq_true, false_or, exists_and_left]

end

/-- The two values of a flag (R36). -/
theorem flagByte_of_iff {b : Bool} {p : Prop} (h : b = true ↔ p) :
    (p → flagByte b = 1) ∧ (¬p → flagByte b = 0) :=
  ⟨fun hp => congrArg flagByte (h.mpr hp), fun hp => congrArg flagByte (Bool.eq_false_iff.mpr (mt h.mp hp))⟩

/-! ## The ends of DXYN -/

theorem drawOrWait_stalled (n : Nibble) (hw : s.config.displayWait = true) : drawOrWait true x y n s = .next s := by
  rw [drawOrWait, hw, Bool.and_true, if_pos rfl, wait_advance]

/-- Without display_wait the stall input is ignored (R232). -/
theorem drawOrWait_of_not_displayWait (n : Nibble) (hw : s.config.displayWait = false) (stall : Bool) :
    drawOrWait stall x y n s = .next (drawn x y n s) := by
  rw [drawOrWait, hw, Bool.false_and]
  rfl

/-- The state in which DXYN draws: a stall input is counted where it reads one (log entry 6). -/
def countStall (s : State) : State :=
  { s with stalls := if s.config.displayWait = true then s.stalls + 1 else s.stalls }

/-- A draw that does not stall draws (R231). -/
theorem exec_drw_of_not_waits (n : Nibble) (hw : waits (.drw x y n) s = false) :
    exec (.drw x y n) s = .next (drawn x y n (countStall s)) := by
  obtain ⟨t, ht⟩ := exec_answers_next (.drw x y n) s
  obtain ⟨hstalls, -⟩ | ⟨-, rfl⟩ := execDrw_cases ht
  · rw [hw] at hstalls
    contradiction
  · exact ht

/-- The sprite is drawn from I, VX, VY, memory and the configuration alone. -/
theorem spriteDrawn_congr (hx : getV t x = getV s x) (hy : getV t y = getV s y) (hi : t.i = s.i)
    (hm : ∀ a, memRead t a = memRead s a) (hc : t.config = s.config) : spriteDrawn t x y = spriteDrawn s x y := by
  funext r c
  rw [spriteDrawn, spriteDrawn, hx, hy, hi, hm, hc]

theorem spriteTouches_congr (hx : getV t x = getV s x) (hy : getV t y = getV s y) (hi : t.i = s.i)
    (hm : ∀ a, memRead t a = memRead s a) (hc : t.config = s.config) :
    spriteTouches t x y = spriteTouches s x y := by
  funext rows px py
  simp only [spriteTouches, spriteLands, spriteDrawn_congr hx hy hi hm hc, hx, hy, hc]

end Sys2Proof.Machine

namespace Sys2Proof.Proofs

open Sys2Proof.Machine

/-- Settles O41: each bit that lands on a pixel flips it. -/
theorem drawSpritePixels : Obligations.DrawSpritePixels := by
  intro x y n
  refine ⟨decode_of_eq_encode (wordR_eq_encodeR 0xD n x y), fun s hfits hH hstall => ?_⟩
  refine ⟨_, exec_drw_of_not_waits n hstall, fun px py _ _ => ?_, ?_, rfl, fun k hk => ?_, rfl, rfl,
    ChangesOnly.unchangedBut rfl⟩
  · exact pixel_drawn (s := countStall s) n hH hfits px py
  · exact (drawSprite_length _ x y n).trans hfits
  · exact (getV_drawn x y n _ k).trans (if_neg hk)

/-- Settles O42: VF is the collision that drawing the rows one after the other has seen. -/
theorem drawSpriteCollision : Obligations.DrawSpriteCollision := by
  intro x y n s t hfits hH hstall ht
  obtain rfl := Host.Outcome.next.inj ((exec_drw_of_not_waits n hstall).symm.trans ht)
  rw [getV_drawn, if_pos rfl]
  exact flagByte_of_iff (hit_drawSprite (s := countStall s) n hH hfits)

/-- Settles O43: a stall undoes the advance of PC. -/
theorem drawStalls : Obligations.DrawStalls := by
  refine fun x y n s => ⟨fun hw => ⟨if_pos hw, drawOrWait_stalled n hw⟩, fun hw stall => ?_⟩
  calc drawOrWait stall x y n s
      _ = .next (drawn x y n s) := drawOrWait_of_not_displayWait n hw stall
      _ = drawOrWait false x y n s := (drawOrWait_of_not_displayWait n hw false).symm
      _ = exec (.drw x y n) s := (if_neg (by simp [hw])).symm

/-- Settles O44: the second draw flips the pixels that the first one flipped; it collides at each drawn bit, for on 16
rows no other bit lands where a drawn bit lands. -/
theorem drawTwiceRestores : Obligations.DrawTwiceRestores := by
  intro x y n s t u hx hy hfits hH hwait ht hu
  obtain ⟨t', ht', hpixel, hfits', -, hreg, -, -, hsame⟩ :=
    (drawSpritePixels x y n).2 s hfits hH (by simp [hwait])
  obtain rfl := Host.Outcome.next.inj (ht'.symm.trans ht)
  have hconfig : t'.config = s.config := hsame .config (by decide)
  have hi : t'.i = s.i := hsame .i (by decide)
  have hmem : ∀ a, memRead t' a = memRead s a := hsame .mem (by decide)
  have hdrawn := spriteDrawn_congr (hreg x hx) (hreg y hy) hi hmem hconfig
  have htouches := spriteTouches_congr (hreg x hx) (hreg y hy) hi hmem hconfig
  have hH' : 1 ≤ t'.config.displayH := hconfig ▸ hH
  have hstall' : (t'.config.displayWait && Config.stall t'.stalls) = false := by simp [hconfig, hwait]
  refine ⟨fun px py hpx hpy => ?restores, fun h16 ⟨r, c, hr, hc, hd⟩ hoff => ?collides⟩
  case restores =>
    obtain ⟨u', hu', hpixel', -⟩ := (drawSpritePixels x y n).2 t' hfits' hH' hstall'
    obtain rfl := Host.Outcome.next.inj (hu'.symm.trans hu)
    rw [hpixel' px py hpx (hconfig ▸ hpy), htouches, hpixel px py hpx hpy, Bool.xor_assoc, Bool.xor_self,
      Bool.xor_false]
  case collides =>
    have hn : n.toNat < 16 := n.isLt
    refine (drawSpriteCollision x y n t' u hfits' hH' hstall' hu).1 ⟨r, c, hr, hc, hdrawn ▸ hd, ?_⟩
    rw [htouches, hreg x hx, hreg y hy, hconfig, hpixel _ _ (Nat.mod_lt _ (by decide)) (Nat.mod_lt _ hH),
      hoff r c hr hc hd, spriteTouches_under_drawn h16 (by omega) hc hd (by omega),
      spriteTouches_under_drawn h16 (by omega) hc hd (by omega)]
    simp [hr]

end Sys2Proof.Proofs
end

section
/-! PROOF. Keypad wait, address register and block transfers (44_keypad_timer_memory.md R260 to R269): the values that I
and memory take, and the state that each instruction ends in. -/

namespace Sys2Proof.Machine

open Sys2Proof.Claims

variable {s t : State} {i : Instr} {x k : Reg}

/-! ## The words of class F -/

/-- An instruction of class F is what its row's word decodes to (R104). -/
theorem decode_wordS_classF (nn : Byte) (henc : encode i = encodeB 0xF x nn) :
    decode (wordS (0xF000 + nn.toNat) x) = .ok i :=
  decode_of_eq_encode ((wordS_eq_encodeB 0xF x nn).trans henc.symm)

/-! ## The address register -/

/-- An instruction that ends by writing I after the advance of PC. -/
theorem writesI_of_exec {w : Word} (h : exec i s = complete (setI (advance s) w)) : WritesI i s w :=
  ⟨_, h, rfl, rfl, ChangesOnly.unchangedBut rfl⟩

theorem zext_eq_ofNat (nnn : Addr) : zext nnn = BitVec.ofNat 16 nnn.toNat :=
  (BitVec.ofNat_toNat 16 nnn).symm

/-- The sum of I and a byte wraps at 16 bits (R265). -/
theorem add_zextByte_eq_ofNat (w : Word) (b : Byte) :
    w + zextByte b = BitVec.ofNat 16 ((w.toNat + b.toNat) % 65536) := by
  apply BitVec.eq_of_toNat_eq
  rw [BitVec.toNat_add, toNat_zextByte, BitVec.toNat_ofNat, Nat.mod_mod]

/-- A glyph's address is at most 0x54B, so that the word holds it whole (R269). -/
theorem toNat_glyphAddr (b : Byte) : (glyphAddr b).toNat = 0x050 + b.toNat * 5 := by
  rw [glyphAddr, BitVec.toNat_ofNat, fontStart]
  omega

/-! ## FX0A -/

theorem exec_ldVxK_released (h : firstReleased s = some k) :
    exec (.ldVxK x) s = .next (setV (advance s) x (BitVec.ofNat 8 k.val)) := by
  rw [exec, execLdVxK, h]
  rfl

theorem exec_ldVxK_none_released (h : firstReleased s = none) : exec (.ldVxK x) s = .next s := by
  rw [exec, execLdVxK, h]
  exact wait_advance s

/-! ## FX33 -/

theorem toNat_hundreds (b : Byte) : (hundreds b).toNat = b.toNat / 100 :=
  (BitVec.toNat_ofNat _ _).trans (Nat.mod_eq_of_lt (by omega))

theorem toNat_tens (b : Byte) : (tens b).toNat = b.toNat / 10 % 10 :=
  (BitVec.toNat_ofNat _ _).trans (Nat.mod_eq_of_lt (by omega))

theorem toNat_ones (b : Byte) : (ones b).toNat = b.toNat % 10 :=
  (BitVec.toNat_ofNat _ _).trans (Nat.mod_eq_of_lt (by omega))

/-- The first 4096 bytes of an access fall on different addresses (R78). -/
theorem effAddr_mod_ne {j k : Nat} (hjk : j < k) (hk : k < 4096) : effAddr s j % 4096 ≠ effAddr s k % 4096 := by
  unfold effAddr
  omega

/-- Memory after FX33: the last of the three stores that reaches an address is the one read there (R266). -/
theorem memRead_of_ldBVx (h : exec (.ldBVx x) s = .next t) (a : Nat) :
    memRead t a =
      if a % 4096 = effAddr s 2 % 4096 then ones (getV s x)
      else if a % 4096 = effAddr s 1 % 4096 then tens (getV s x)
      else if a % 4096 = effAddr s 0 % 4096 then hundreds (getV s x)
      else memRead s a := by
  obtain rfl := Host.Outcome.next.inj h
  rw [memRead_memWrite, memRead_memWrite, memRead_memWrite]
  rfl

/-! ## FX55 and FX65 -/

/-- I after a block transfer, as the statements write it (R267, R268). -/
theorem incrementI_eq_iAfterBlock (x : Reg) (s : State) : incrementI x s = { s with i := iAfterBlock s x } := by
  have hsum : s.i + BitVec.ofNat 16 (x.val + 1) = BitVec.ofNat 16 (s.i.toNat + x.val + 1) := by
    rw [Nat.add_assoc, BitVec.ofNat_add (s.i.toNat), BitVec.ofNat_toNat, BitVec.setWidth_eq]
  rw [incrementI_eq, hsum]
  rfl

theorem exec_ldMemVx (x : Reg) (s : State) :
    exec (.ldMemVx x) s = .next { s with
      mem := (storeRegs (x.val + 1) (advance s)).mem, i := iAfterBlock s x, pc := s.pc + 2 } := by
  rw [exec, execLdMemVx, incrementI_eq_iAfterBlock, storeRegs_eq]
  rfl

theorem exec_ldVxMem (x : Reg) (s : State) :
    exec (.ldVxMem x) s = .next { s with
      v := (loadRegs (x.val + 1) (advance s)).v, i := iAfterBlock s x, pc := s.pc + 2 } := by
  rw [exec, execLdVxMem, incrementI_eq_iAfterBlock, loadRegs_eq]
  rfl

/-- A byte that FX55 does not store to (R267). -/
theorem memRead_of_ldMemVx_miss {a : Nat} (h : exec (.ldMemVx x) s = .next t)
    (ha : ∀ k : Reg, k ≤ x → a % 4096 ≠ effAddr s k.val % 4096) : memRead t a = memRead s a := by
  obtain rfl := Host.Outcome.next.inj h
  have hmiss : ∀ j < x.val + 1, a % 4096 ≠ effAddr (advance s) j % 4096 := fun j hj =>
    ha ⟨j, hj.trans_le x.isLt⟩ (Nat.le_of_lt_succ hj)
  rw [memRead_incrementI, memRead_storeRegs_miss hmiss]
  rfl

/-- The registers after FX65 (R268). -/
theorem getV_of_ldVxMem (h : exec (.ldVxMem x) s = .next t) (k : Reg) :
    getV t k = if k ≤ x then memRead s (effAddr s k.val) else getV s k := by
  obtain rfl := Host.Outcome.next.inj h
  rw [getV_incrementI, getV_loadRegs x.isLt]
  exact if_congr Nat.lt_succ_iff rfl rfl

end Sys2Proof.Machine

namespace Sys2Proof.Proofs

open Sys2Proof.Machine

/-- Settles O45: both instructions end by writing I; the sum wraps at 16 bits. -/
theorem addressRegister : Obligations.AddressRegister :=
  ⟨fun nnn => ⟨decode_of_eq_encode (wordA_eq_encodeA 0xA nnn), fun _ =>
      zext_eq_ofNat nnn ▸ writesI_of_exec rfl⟩,
    fun x => ⟨decode_wordS_classF 0x1E rfl, fun s =>
      add_zextByte_eq_ofNat s.i (getV s x) ▸ writesI_of_exec rfl⟩⟩

/-- Settles O46: the address of a glyph fits in 16 bits. -/
theorem glyphAddress : Obligations.GlyphAddress := fun x =>
  ⟨decode_wordS_classF 0x29 rfl, fun s =>
    ⟨_, rfl, toNat_glyphAddr (getV s x), rfl, ChangesOnly.unchangedBut rfl⟩⟩

/-- Settles O48, by the two ends of the scan for a Released key. -/
theorem waitKey : Obligations.WaitKey := by
  refine fun x => ⟨decode_wordS_classF 0x0A rfl, fun s =>
    ⟨fun k hk hlow => ?takes, fun hnone => ?waits⟩⟩
  case takes =>
    have hfirst : firstReleased s = some k := firstReleased_eq_some.mpr ⟨hk, hlow⟩
    exact ⟨_, exec_ldVxK_released hfirst, writesV_setV_advance s x _⟩
  case waits => exact exec_ldVxK_none_released (firstReleased_eq_none.mpr hnone)

/-- Settles O49: the three stores fall on different addresses, so that none hides another. -/
theorem decimalDigits : Obligations.DecimalDigits := by
  refine fun x => ⟨decode_wordS_classF 0x33 rfl, fun s => ⟨_, rfl, ?hundreds, ?tens, ?ones,
    fun a ha => ?others, rfl, ChangesOnly.unchangedBut rfl⟩⟩
  case hundreds =>
    rw [memRead_of_ldBVx rfl, if_neg (effAddr_mod_ne (by decide) (by decide)),
      if_neg (effAddr_mod_ne (by decide) (by decide)), if_pos rfl, toNat_hundreds]
  case tens =>
    rw [memRead_of_ldBVx rfl, if_neg (effAddr_mod_ne (by decide) (by decide)), if_pos rfl, toNat_tens]
  case ones => rw [memRead_of_ldBVx rfl, if_pos rfl, toNat_ones]
  case others =>
    rw [memRead_of_ldBVx rfl, if_neg (ha 2 (by decide)), if_neg (ha 1 (by decide)), if_neg (ha 0 (by decide))]

/-- Settles O50, from the state that FX55 ends in and the reads that its stores reach and do not reach. -/
theorem storeBlock : Obligations.StoreBlock := fun x =>
  ⟨decode_wordS_classF 0x55 rfl, fun s =>
    have hexec := exec_ldMemVx x s
    ⟨_, hexec, fun _ hk => memRead_of_ldMemVx hexec hk rfl, fun _ ha => memRead_of_ldMemVx_miss hexec ha,
      rfl, rfl, ChangesOnly.unchangedBut rfl⟩⟩

/-- Settles O51, by the registers after a block load. -/
theorem loadBlock : Obligations.LoadBlock := fun x =>
  ⟨decode_wordS_classF 0x65 rfl, fun s =>
    have hexec := exec_ldVxMem x s
    ⟨_, hexec, getV_of_ldVxMem hexec, rfl, rfl, ChangesOnly.unchangedBut rfl⟩⟩

/-- Settles O52: with I as it was, the load reads the places that the store wrote. -/
theorem storeThenLoad : Obligations.StoreThenLoad := by
  intro x s t u w hstore hmem hi hload k hk
  have hplace : effAddr u k.val = effAddr s k.val := by rw [effAddr, hi, effAddr]
  calc getV w k
    _ = memRead u (effAddr u k.val) := (getV_of_ldVxMem hload k).trans (if_pos hk)
    _ = memRead t (effAddr s k.val) := by rw [hmem, hplace]
    _ = getV s k := memRead_of_ldMemVx hstore hk rfl

end Sys2Proof.Proofs
end

section
/-! PROOF. Faults and the host's transactions (60_exceptions.md R300 to R345): where a fault comes from, which parts of
the state each transaction may change, and what follows for a halted core, the keys, draw_flag and the idle loop. -/

namespace Sys2Proof.Machine

variable {s t : State} {i : Instr} {a : Transaction} {rest : List Transaction}

/-! ## Where a fault comes from (R302, R303, R305) -/

/-- An instruction raises a fault only as 2NNN at the cap, or as EX9E or EXA1 on a key index that faults. -/
theorem raises_sources {kind : FaultKind} (h : raises i s = some kind) :
    (∃ nnn, i = .call nnn ∧ kind = .stackOverflow ∧ stackFull s = true) ∨
      ∃ x, (i = .skp x ∨ i = .sknp x) ∧ keyIndex s.config (getV s x) = .error kind := by
  cases i with
  | call nnn =>
    simp only [raises] at h
    split at h
    · next hfull =>
      cases h
      exact .inl ⟨nnn, rfl, rfl, hfull⟩
    · cases h
  | skp x | sknp x =>
    refine .inr ⟨x, by simp, ?_⟩
    simp only [raises] at h
    split at h
    · cases h
    · next hk =>
      cases h
      exact hk
  | _ => contradiction

/-- A fault record that was not there before an instruction is the one it raised, and nothing else changed (R300). -/
theorem exec_new_fault {r : FaultRecord} (hf : s.fault = none) (h : exec i s = .next t) (hr : t.fault = some r) :
    ∃ kind, raises i s = some kind ∧ r = ⟨kind, encode i, s.pc⟩ ∧ t = { s with fault := some r } := by
  cases hk : raises i s with
  | none =>
    rw [exec_keeps_fault h hk, hf] at hr
    contradiction
  | some kind =>
    rw [exec_of_raises hk, raise_eq] at h
    obtain rfl := Host.Outcome.next.inj h
    cases hr
    exact ⟨kind, rfl, rfl, rfl⟩

/-! ## What the host's transactions change (R340) -/

/-- The parts of the state that a transaction other than a tick may change (R320, R323, R342); a tick is run by the
step. -/
def transactionParts : Transaction → List Part
  | .advanceTimers => [.dt, .st]
  | .keySample _ => [.keys]
  | .clearDrawFlag => [.drawFlag]
  | .tick | .readDisplay | .readDrawFlag | .readSoundActive | .inspect => []

/-- A step that performs the host's next transaction takes it off the schedule. -/
theorem step_transaction (hs : s.schedule = a :: rest) (ha : a ≠ .tick) :
    step s = .next (applyHost a { s with schedule := rest }) := by
  rw [step, hs]
  cases a with
  | tick => contradiction
  | _ => rfl

/-- A step is a tick, listed in the schedule or not, or it performs the host's next transaction. -/
theorem step_ticks_or_transacts (h : step s = .next t) :
    (∃ rest, tick { s with schedule := rest } = .next t) ∨
      ∃ a rest, s.schedule = a :: rest ∧ t = applyHost a { s with schedule := rest } := by
  obtain ⟨-, ht⟩ | ⟨rest, -, ht⟩ | ⟨a, rest, hs, -, rfl⟩ := step_cases h
  · exact .inl ⟨s.schedule, ht⟩
  · exact .inl ⟨rest, ht⟩
  · exact .inr ⟨a, rest, hs, rfl⟩

/-- A transaction changes no part but its own and the schedule. -/
theorem applyHost_unchangedBut (a : Transaction) (rest : List Transaction) (s : State) :
    UnchangedBut (transactionParts a ++ [.schedule]) s (applyHost a { s with schedule := rest }) := by
  apply ChangesOnly.unchangedBut
  cases a <;> rfl

theorem UnchangedBut.mono {listed more : List Part} (h : UnchangedBut listed s t) (hsub : listed ⊆ more) :
    UnchangedBut more s t :=
  fun p hp => h p (mt (@hsub p) hp)

/-- All that the host's transactions other than a tick can change. -/
theorem transactionParts_append_schedule_subset (a : Transaction) :
    transactionParts a ++ [.schedule] ⊆ [.dt, .st, .keys, .drawFlag, .schedule] := by
  cases a <;> simp [transactionParts]

theorem keys_mem_transactionParts : .keys ∈ transactionParts a ↔ ∃ held, a = .keySample held := by
  cases a <;> simp [transactionParts]

theorem drawFlag_mem_transactionParts : .drawFlag ∈ transactionParts a ↔ a = .clearDrawFlag := by
  cases a <;> simp [transactionParts]

/-! ## A halted core (R130, R300) -/

theorem tick_ne_next_of_fault {r : FaultRecord} (hf : s.fault = some r) : tick s ≠ .next t := by
  rw [tick_halted hf]
  nofun

/-- A halted core steps only by a transaction of the host other than a tick. -/
theorem step_of_fault {r : FaultRecord} (hf : s.fault = some r) (h : step s = .next t) :
    ∃ a rest, t = applyHost a { s with schedule := rest } := by
  obtain ⟨rest, ht⟩ | ⟨a, rest, -, rfl⟩ := step_ticks_or_transacts h
  · exact absurd ht (tick_ne_next_of_fault (s := { s with schedule := rest }) hf)
  · exact ⟨a, rest, rfl⟩

/-! ## What a tick leaves of the keys and draw_flag (R325, R342) -/

theorem tick_keeps_keys (h : tick s = .next t) : t.keys = s.keys := by
  obtain ⟨-, ⟨i, -, hi⟩ | ⟨-, rfl⟩⟩ := tick_cases h
  · exact (exec_changesOnly hi).unchangedBut .keys keys_not_mem_writtenParts
  · rfl

/-- No tick clears draw_flag: an instruction that changes it sets it. -/
theorem tick_keeps_drawFlag_set (h : tick s = .next t) (hs : s.drawFlag = true) : t.drawFlag = true := by
  obtain ⟨-, ⟨i, -, hi⟩ | ⟨-, rfl⟩⟩ := tick_cases h
  · by_cases hsame : t.drawFlag = s.drawFlag
    · exact hsame.trans hs
    · obtain ⟨-, hwriter⟩ := Proofs.displayWriters i s t hi
      exact (hwriter hsame).1
  · exact hs

/-! ## Timers and keys (R320, R324) -/

/-- One count is a subtraction that stops at 0. -/
theorem toNat_countDown (b : Byte) : (countDown b).toNat = b.toNat - 1 := by
  unfold countDown
  split
  · exact BitVec.toNat_sub_of_le (BitVec.le_def.mpr ‹_›)
  · omega

/-- A key that was held is Down or Released after a sample. -/
theorem KeyState.sample_of_held {k : KeyState} (h : k.held = true) (b : Bool) :
    k.sample b = if b = true then .down else .released := by
  obtain rfl | rfl := (held_iff k).mp h <;> cases b <;> rfl

/-- A key that was not held is Pressed or None after a sample. -/
theorem KeyState.sample_of_not_held {k : KeyState} (h : (!k.held) = true) (b : Bool) :
    k.sample b = if b = true then .pressed else .none := by
  obtain rfl | rfl := (not_held_iff k).mp h <;> cases b <;> rfl

/-! ## The sound output (R331) -/

theorem soundActive_eq (s : State) : soundActive s = decide (s.st.toNat ≠ 0) := by
  rw [Bool.eq_iff_iff, soundActive, bne_iff_ne, decide_eq_true_iff, ne_eq, ← BitVec.toNat_inj]
  rfl

/-! ## The idle loop (R345) -/

/-- The word of a jump is its class bits over the target (R102). -/
theorem encode_jp_eq_or (nnn : Addr) : encode (.jp nnn) = 0x1000 ||| zext nnn := by
  apply BitVec.eq_of_toNat_eq
  rw [BitVec.toNat_or, toNat_zext]
  exact BitVec.toNat_append 1 nnn

theorem zext_setWidth_of_le {pc : Word} (h : pc.toNat ≤ 0xFFF) : zext (pc.setWidth 12) = pc := by
  apply BitVec.eq_of_toNat_eq
  rw [toNat_zext, BitVec.toNat_setWidth]
  omega

/-- A jump to its own address changes nothing. -/
theorem exec_jp_self {nnn : Addr} (h : zext nnn = s.pc) : exec (.jp nnn) s = .next s := by
  rw [exec, execJp, h]
  rfl

end Sys2Proof.Machine

namespace Sys2Proof.Proofs

open Sys2Proof.Machine

/-- Settles O12: a halted core moves only by the host's transactions, and the fault record is a part of none. -/
theorem faultIsFinal : Obligations.FaultIsFinal := by
  intro s t r hf h
  obtain ⟨a, rest, rfl⟩ := step_of_fault hf h
  have hunchanged : UnchangedBut [.dt, .st, .keys, .drawFlag, .schedule] s (applyHost a { s with schedule := rest }) :=
    (applyHost_unchangedBut a rest s).mono (transactionParts_append_schedule_subset a)
  exact ⟨(hunchanged .fault (by decide)).trans hf, hunchanged⟩

/-- Settles O13: the record is the one that the instruction raised, and `raises_sources` says which ones can. -/
theorem faultSources : Obligations.FaultSources := by
  intro i s t r hf h hr
  obtain ⟨kind, hraises, rfl, ht⟩ := exec_new_fault hf h hr
  refine ⟨ht, rfl, rfl, ?_⟩
  obtain ⟨nnn, hi, hkind, hfull⟩ | ⟨x, hi, hkey⟩ := raises_sources hraises
  · exact .inl ⟨nnn, hi, hkind, (stackFull_iff s).mp hfull⟩
  · exact .inr ⟨x, hi, keyIndex_eq_error.mp hkey⟩

/-- Settles O15: waiting and faulting are next states as well. -/
theorem everyInstructionAnswers : Obligations.EveryInstructionAnswers := exec_answers_next

/-- Settles O19: a tick keeps the keys and never clears the flag, and each is a part of one transaction only. -/
theorem keysAndDrawFlagAreTheHosts : Obligations.KeysAndDrawFlagAreTheHosts := by
  intro s t h
  obtain ⟨rest, ht⟩ | ⟨a, rest, hs, rfl⟩ := step_ticks_or_transacts h
  · exact ⟨fun hne => absurd (tick_keeps_keys ht) hne,
      fun hset hclear => absurd ((tick_keeps_drawFlag_set ht hset).symm.trans hclear) nofun⟩
  · have hu := applyHost_unchangedBut a rest s
    refine ⟨fun hne => ?keys, fun hset hclear => ?drawFlag⟩
    case keys =>
      have hmem : Part.keys ∈ transactionParts a := by simpa using not_imp_comm.mp (hu .keys) hne
      obtain ⟨held, rfl⟩ := keys_mem_transactionParts.mp hmem
      exact ⟨held, rest, hs⟩
    case drawFlag =>
      have hne : ¬Part.same s (applyHost a { s with schedule := rest }) .drawFlag :=
        fun hsame => absurd (hclear.symm.trans (hsame.trans hset)) nofun
      have hmem : Part.drawFlag ∈ transactionParts a := by simpa using not_imp_comm.mp (hu .drawFlag) hne
      obtain rfl := drawFlag_mem_transactionParts.mp hmem
      exact ⟨rest, hs⟩

/-- Settles O55: the sample of each key, by whether it was held. -/
theorem keypadTransitions : Obligations.KeypadTransitions := by
  intro s held rest hs
  refine ⟨_, step_transaction hs nofun, rfl, applyHost_unchangedBut (.keySample held) rest s, fun k => ?_⟩
  have hkey : keyAt (applyHost (.keySample held) { s with schedule := rest }) k = (keyAt s k).sample held[k] :=
    keyAt_keySample { s with schedule := rest } held k
  rw [hkey]
  exact ⟨fun h => KeyState.sample_of_held ((held_iff _).mpr h) _,
    fun h => KeyState.sample_of_not_held ((not_held_iff _).mpr h) _⟩

/-- Settles O14: the word fetched is the jump to its own address. -/
theorem idleLoopStays : Obligations.IdleLoopStays := by
  intro s hf ⟨hle, hword⟩
  have hself : zext (s.pc.setWidth 12) = s.pc := zext_setWidth_of_le hle
  have hencode : fetchWord s = encode (.jp (s.pc.setWidth 12)) := by rw [hword, encode_jp_eq_or, hself]
  rw [tick_decoded hf (decode_of_eq_encode hencode), exec_jp_self hself]

/-- Settles O54, by what one count does to a timer. -/
theorem timersCountDown : Obligations.TimersCountDown := fun s rest hs =>
  ⟨_, step_transaction hs nofun, toNat_countDown s.dt, toNat_countDown s.st, rfl,
    applyHost_unchangedBut .advanceTimers rest s⟩

/-- Settles O56: the clearing has one part of its own, the reads have none. -/
theorem hostReadsAndClears : Obligations.HostReadsAndClears := by
  intro s rest
  refine ⟨fun hs => ?clears, fun a ha hs => ?reads, ?sound, rfl, rfl, rfl⟩
  case clears => exact ⟨_, step_transaction hs nofun, rfl, rfl, applyHost_unchangedBut .clearDrawFlag rest s⟩
  case reads =>
    simp only [List.mem_cons, List.not_mem_nil, or_false] at ha
    obtain rfl | rfl | rfl | rfl := ha <;> exact step_transaction hs nofun
  case sound =>
    rw [reply, soundActive_eq]

/-- Settles O57, with the sync point of the model. -/
theorem frameContract : Obligations.FrameContract := fun c =>
  ⟨syncPoint, List.append_assoc (List.replicate c.cyclesPerFrame Transaction.tick) [.advanceTimers] syncPoint,
    by decide, by decide, by decide, by decide, by decide, by decide⟩

end Sys2Proof.Proofs
end

section
/-! PROOF. The reset transaction (70_reset_and_hazards.md R350 to R353): when it refuses a ROM, what each byte of the
memory that it builds is, and that `State.reset` is one of its answers. -/

namespace Sys2Proof.Machine

variable {config : Config} {values : ResetValues} {font rom : List Byte}

/-! ## When a ROM is refused (R350, D26) -/

theorem romFits_iff : romFits rom = true ↔ rom.length ≤ 3584 := decide_eq_true_iff

theorem resetMachine_of_fits (h : rom.length ≤ 3584) :
    resetMachine config values rom = .next (resetState config values rom) :=
  if_pos (romFits_iff.mpr h)

theorem resetMachine_of_too_long (h : 3584 < rom.length) : resetMachine config values rom = .refused .romTooLong :=
  if_neg fun hfits => h.not_ge (romFits_iff.mp hfits)

/-! ## The memory after reset (R350, R352) -/

theorem resetMemory_wf (font rom : List Byte) : (resetMemory font rom).wf :=
  Memory.wf_copyIn rom (Memory.wf_copyIn font Memory.wf_cleared fontStart) romStart

section Placed

variable (hfont : font.length ≤ 0x200 - 0x050) (hrom : rom.length ≤ 3584)
include hfont hrom

/-- Neither copy wraps; the ROM is placed last. -/
theorem lookup_resetMemory (a : Nat) :
    (resetMemory font rom).lookup a =
      if 0x200 ≤ a ∧ a < 0x200 + rom.length then rom.getD (a - 0x200) 0
      else if 0x050 ≤ a ∧ a < 0x050 + font.length then font.getD (a - 0x050) 0 else 0 := by
  have hfontEnd : 0x050 + font.length ≤ 4096 := by omega
  have hromEnd : 0x200 + rom.length ≤ 4096 := by omega
  rw [resetMemory, Memory.lookup_copyIn _ _ _ hromEnd, Memory.lookup_copyIn _ _ _ hfontEnd, Memory.lookup_cleared]

theorem lookup_resetMemory_rom {j : Nat} (hj : j < rom.length) :
    (resetMemory font rom).lookup (0x200 + j) = rom.getD j 0 := by
  rw [lookup_resetMemory hfont hrom, if_pos (by omega), Nat.add_sub_cancel_left]

/-- The font lies below the ROM, which leaves it whole. -/
theorem lookup_resetMemory_font {j : Nat} (hj : j < font.length) :
    (resetMemory font rom).lookup (0x050 + j) = font.getD j 0 := by
  rw [lookup_resetMemory hfont hrom, if_neg (by omega), if_pos (by omega), Nat.add_sub_cancel_left]

theorem lookup_resetMemory_elsewhere {a : Nat} (hnotFont : ¬(0x050 ≤ a ∧ a < 0x050 + font.length))
    (hnotRom : ¬(0x200 ≤ a ∧ a < 0x200 + rom.length)) : (resetMemory font rom).lookup a = 0 := by
  rw [lookup_resetMemory hfont hrom, if_neg hnotRom, if_neg hnotFont]

end Placed

theorem memRead_resetState {a : Nat} (h : a < 4096) :
    memRead (resetState config values rom) a = (resetMemory values.font rom).lookup a := by
  rw [memRead, Nat.mod_eq_of_lt h]
  rfl

theorem keyAt_resetState (k : Reg) : keyAt (resetState config values rom) k = .none :=
  Vector.getElem_replicate k.isLt

/-! ## The runners' font and no ROM (R353) -/

/-- The canonical form lists no cell that reads as unlisted. -/
theorem Memory.eq_nil_of_lookup_eq_unlisted {m : Memory} (hwf : m.wf) (h : ∀ a, m.lookup a = Memory.unlisted a) :
    m = [] := by
  cases m with
  | nil => rfl
  | cons c rest =>
    have hlookup : Memory.lookup (c :: rest) c.1 = c.2 := if_pos rfl
    exact absurd (hlookup.symm.trans (h c.1)) (hwf.2 c List.mem_cons_self).2

theorem Memory.unlisted_eq_font (a : Nat) :
    Memory.unlisted a =
      if 0x050 ≤ a ∧ a < 0x050 + fontData.length then fontData.getD (a - 0x050) 0 else 0 := by
  split
  case isTrue h => exact if_pos h.1
  case isFalse h => exact Memory.unlisted_outside_font (by rw [fontData_length] at h; omega)

/-- With the font that unlisted memory reads as, and no ROM, memory lists nothing. -/
theorem resetMemory_fontData_nil : resetMemory fontData [] = [] := by
  refine Memory.eq_nil_of_lookup_eq_unlisted (resetMemory_wf fontData []) fun a => ?_
  rw [lookup_resetMemory (by decide) (by decide), if_neg (by rw [List.length_nil]; omega), Memory.unlisted_eq_font]

theorem resetState_runner : resetState Config.runner (runnerValues 32) [] = State.reset := by
  have hmem : resetMemory (runnerValues 32).font [] = State.reset.mem := resetMemory_fontData_nil
  rw [resetState, hmem]
  rfl

end Sys2Proof.Machine

namespace Sys2Proof.Proofs

open Sys2Proof.Machine

/-- Settles O59: the parts of `resetState` are the given ones, and memory by the region of each address. -/
theorem resetTransaction : Obligations.ResetTransaction := by
  refine fun c values rom => ⟨resetMachine_of_too_long, fun hrom hfont => ⟨resetState c values rom,
    resetMachine_of_fits hrom, rfl, rfl, rfl, rfl, rfl, rfl, rfl, rfl, keyAt_resetState, rfl, rfl,
    resetMemory_wf values.font rom, fun j hj => ?font, fun j hj => ?rom, fun a ha hnotFont hnotRom => ?elsewhere⟩⟩
  case font => exact (memRead_resetState (by omega)).trans (lookup_resetMemory_font hfont hrom hj)
  case rom => exact (memRead_resetState (by omega)).trans (lookup_resetMemory_rom hfont hrom hj)
  case elsewhere => exact (memRead_resetState ha).trans (lookup_resetMemory_elsewhere hfont hrom hnotFont hnotRom)

/-- Settles O60: the empty ROM fits, and only the two memories have to be compared. -/
theorem resetIsAnInstance : Obligations.ResetIsAnInstance :=
  (resetMachine_of_fits (by decide)).trans (congrArg _ resetState_runner)

end Sys2Proof.Proofs
end

section
/-! PROOF. Register load, immediate addition and copy (41_register_arithmetic.md R150 to R152), and clearing the screen
(43_display.md R230). -/

namespace Sys2Proof.Machine

/-! ## One register written, no flag (R150 to R152) -/

/-- An instruction that ends by writing a byte to VX after the advance of PC. -/
theorem writesV_of_exec {i : Instr} {s : State} {x : Reg} {b : Byte} (h : exec i s = complete (setV (advance s) x b)) :
    ∃ t, exec i s = .next t ∧ Claims.WritesV s t x b :=
  ⟨_, h, writesV_setV_advance s x b⟩

/-- The sum of 7XNN wraps at 8 bits (R151). -/
theorem exec_addImm (x : Reg) (nn : Byte) (s : State) :
    exec (.addImm x nn) s =
      complete (setV (advance s) x (BitVec.ofNat 8 (((getV s x).toNat + nn.toNat) % 256))) := by
  rw [exec, execAddImm, ofNat_mod_256]

/-! ## The screen after 00E0 (R230) -/

/-- The state that 00E0 ends in. -/
def cleared (s : State) : State :=
  { advance s with
    display := Display.blank s.config.displayH, drawFlag := s.drawFlag || s.config.clsSetsDrawFlag }

theorem exec_cls (s : State) : exec .cls s = .next (cleared s) := rfl

theorem pixel_cleared (s : State) (px py : Nat) : (cleared s).display.pixel px py = false :=
  Display.pixel_blank s.config.displayH px py

theorem displayFits_cleared (s : State) : (cleared s).displayFits :=
  Display.length_blank s.config.displayH

/-- draw_flag is raised where CLS_SETS_DRAW_FLAG says so (choice D9). -/
theorem drawFlag_cleared_of_sets {s : State} (h : s.config.clsSetsDrawFlag = true) : (cleared s).drawFlag = true := by
  rw [cleared, h, Bool.or_true]

theorem drawFlag_cleared_of_not_sets {s : State} (h : s.config.clsSetsDrawFlag = false) :
    (cleared s).drawFlag = s.drawFlag := by
  rw [cleared, h, Bool.or_false]

theorem cleared_changesOnly (s : State) : ChangesOnly [.display, .drawFlag, .pc] s (cleared s) := rfl

end Sys2Proof.Machine

namespace Sys2Proof.Proofs

open Sys2Proof.Machine

/-- Settles O24: the byte of the word is written to VX after the advance of PC. -/
theorem loadImmediate : Obligations.LoadImmediate := fun x nn =>
  ⟨decode_of_eq_encode (wordB_eq_encodeB 0x6 x nn), fun _ => writesV_of_exec rfl⟩

/-- Settles O25: the sum is the one register written, so that no carry reaches VF. -/
theorem addImmediate : Obligations.AddImmediate := fun x nn =>
  ⟨decode_of_eq_encode (wordB_eq_encodeB 0x7 x nn), fun s => writesV_of_exec (exec_addImm x nn s)⟩

/-- Settles O26: the copy is the one register written, in every configuration. -/
theorem copyRegister : Obligations.CopyRegister := fun _ _ =>
  ⟨decode_wordR_class8 0x0 rfl, fun _ => writesV_of_exec rfl⟩

/-- Settles O40, from the screen, draw_flag and the other parts of the state that 00E0 ends in. -/
theorem clearScreen : Obligations.ClearScreen :=
  ⟨decode_of_eq_encode rfl, fun s => ⟨cleared s, exec_cls s, pixel_cleared s, displayFits_cleared s,
    drawFlag_cleared_of_sets, drawFlag_cleared_of_not_sets, rfl, (cleared_changesOnly s).unchangedBut⟩⟩

end Sys2Proof.Proofs
end
